-- ==== Sys2Proof/Word.lean ====
section
/-! DEFINITION. The word types of the KL27 CORE: the widths of spec/00_scope.md rule R8, and nothing else. -/

namespace Sys2Proof

/-- 8 bits: one address unit (`AU`, R8). -/
abbrev Byte := BitVec 8

/-- 16 bits: a general register (`GPRW`), the opcode field (`OPW`), the operand field (`OPDW`) and a label identifier
(`LIDW`), R8. -/
abbrev Half := BitVec 16

/-- 32 bits: the program counter (`PCW`), an instruction word (`ILEN`), a label's stored offset (`LOFFW`), a stack
element (`STKW`), R8, and the information value of a fault (R183). -/
abbrev Word := BitVec 32

end Sys2Proof
end

