-- ==== Sys2Proof/Syntax.lean ====
section
/-! DEFINITION. Syntax of the KL27 bytecode, CORE subset: the two instructions of spec/opcode_table.json, the decoded
entry that the instruction store holds, and the instruction record of the diagnostics buffers. -/

namespace Sys2Proof

/-- The instructions in scope (R2), one constructor per row of the opcode table. An opcode value from `0x0002` up is no
instruction (R88, R89); the dispatch mux's fallback arm takes it (R110). -/
inductive Instr where
  /-- `nop` (R120). The operand field is ignored by the handler and kept, since the record of the instruction carries it
  (R87). -/
  | nop (operand : Half)
  /-- `jmpl id` (R125). The operand field is the label identifier (R86). -/
  | jmpl (label : Half)
deriving DecidableEq, Repr

/-- The two fields of an instruction, as the instruction store holds them (R40, R84): `(opcode, operand)`. -/
structure Entry where
  opcode  : Half
  operand : Half
deriving DecidableEq, Repr

/-- The `Instr` record of the spec (R11, R36): `{address, opcode, operand}`, its opcode an integer in `-1 .. 65535`,
`-1` only in the sentinel. -/
structure InstrRecord where
  address : Word
  opcode  : Int
  operand : Half
deriving DecidableEq, Repr

/-- The `JumpPair` record (R11, R37): `(from-address, to-address)`. -/
structure JumpPair where
  source : Word
  target : Word
deriving DecidableEq, Repr

end Sys2Proof
end

