-- ==== Sys2Proof/WellFormed.lean ====
section
/-! DEFINITION. Well-formedness of instructions and of instruction records. -/

namespace Sys2Proof

/-- Every instruction is well-formed: the operand's type is the 16-bit field itself (R81), a `nop` may carry any operand
(R87, R89), and every label identifier, 0 among them, is an ordinary one (R131 f). Whether the label is defined is a fact
about the label table, not about the instruction (R127). -/
def Instr.wellFormed : Instr → Bool
  | .nop _ => true
  | .jmpl _ => true

/-- A record's opcode lies in `-1 .. 65535`, and `-1` stands only in the sentinel, whose operand is 0 (R36). -/
def InstrRecord.wellFormed (r : InstrRecord) : Bool :=
  decide (-1 ≤ r.opcode) && decide (r.opcode ≤ 65535) && (decide (r.opcode ≠ -1) || decide (r.operand = 0))

/-- A record of a FETCHED instruction: its opcode is the value of a 16-bit field (R36, R91). -/
def InstrRecord.isFetched (r : InstrRecord) : Bool :=
  decide (0 ≤ r.opcode) && decide (r.opcode ≤ 65535)

end Sys2Proof
end

