-- ==== Sys2Proof/Decode.lean ====
section
/-! DEFINITION. Instruction encoding: the one format `F` (spec/30_encoding.md), decoding that is total on words and on
bytes and rejects by name, and the encoder written from the same table. -/

namespace Sys2Proof

/-! ## Fields, words, bytes -/

/-- `Decode(w)` of R83: the opcode is `w[31:16]`, the operand `w[15:0]` (R81). No word is rejected here. -/
def fieldsOfWord (w : Word) : Entry :=
  ⟨w.extractLsb' 16 16, w.extractLsb' 0 16⟩

/-- `Encode(opcode, operand)` of R83: the opcode in the more significant bits. -/
def wordOfFields (e : Entry) : Word :=
  e.opcode ++ e.operand

/-- The image of an instruction word as four address units, lowest address first: big-endian (R82). -/
def bytesOfWord (w : Word) : List Byte :=
  [w.extractLsb' 24 8, w.extractLsb' 16 8, w.extractLsb' 8 8, w.extractLsb' 0 8]

/-- The word whose image the four bytes are, the first from the lowest address (R82). -/
def wordOfBytes (b0 b1 b2 b3 : Byte) : Word :=
  (b0 ++ b1) ++ (b2 ++ b3)

/-! ## The dispatch mux's closed mapping -/

/-- The arms of the dispatch mux (R90). -/
inductive Handler where
  | nop
  | labelJump
  | unknown (v : Half)
deriving DecidableEq, Repr

/-- `Classify` (R90): opcode 0, opcode 1, every other value. -/
def classify (v : Half) : Handler :=
  if v = 0x0000#16 then .nop else if v = 0x0001#16 then .labelJump else .unknown v

/-! ## Decoding -/

/-- Why bytes are no instruction. -/
inductive DecodeError where
  /-- An opcode value with no handler (R88, R89): what dispatch turns into the fault `UnknownOpcode` (R110). -/
  | unknownOpcode (v : Half)
  /-- Fewer than the four address units of an instruction (R80): only a byte image can lack them, never the store. -/
  | truncated (available : Nat)
deriving DecidableEq, Repr

/-- The instruction an entry of the instruction store stands for (R88). -/
def decodeEntry (e : Entry) : Except DecodeError Instr :=
  match classify e.opcode with
  | .nop => .ok (.nop e.operand)
  | .labelJump => .ok (.jmpl e.operand)
  | .unknown v => .error (.unknownOpcode v)

/-- The instruction a 32-bit word stands for. -/
def decodeWord (w : Word) : Except DecodeError Instr :=
  decodeEntry (fieldsOfWord w)

/-- The instruction at the head of a byte image, with the rest of the image: every instruction has four bytes (R80). -/
def decodeBytes : List Byte → Except DecodeError (Instr × List Byte)
  | b0 :: b1 :: b2 :: b3 :: rest =>
    match decodeWord (wordOfBytes b0 b1 b2 b3) with
    | .ok i => .ok (i, rest)
    | .error e => .error e
  | short => .error (.truncated short.length)

/-! ## Encoding -/

/-- The fields of an instruction, from the opcode map of R88. -/
def encodeEntry : Instr → Entry
  | .nop operand => ⟨0x0000#16, operand⟩
  | .jmpl label => ⟨0x0001#16, label⟩

/-- The word of an instruction. -/
def encode (i : Instr) : Word :=
  wordOfFields (encodeEntry i)

/-- The four bytes of an instruction. -/
def encodeBytes (i : Instr) : List Byte :=
  bytesOfWord (encode i)

/-! ## The host's question: an instruction from the bits of its opcode-table row -/

/-- The 32-bit word with the low `nbits` bits of `w`, every bit above them zero. -/
def tableWord (nbits w : Nat) : Word :=
  BitVec.ofNat 32 (w % 2 ^ nbits)

/-- The instruction the decoder reads from the word the table numbers `w`, laid out in memory order (R82); none where it
refuses, and none for a row wider than an instruction (R80). -/
def decodeTableWord (nbits w : Nat) : Option Instr :=
  if nbits ≤ 32 then
    match decodeBytes (bytesOfWord (tableWord nbits w)) with
    | .ok (i, _) => some i
    | .error _ => none
  else none

end Sys2Proof
end

