-- ==== Sys2Proof/Config.lean ====
section
/-! DEFINITION. The constants of the hardware: the values the spec fixes (R7) and the parameters it leaves open (R9,
spec/93_implementation_defined.md U2, U4, U16), each open one a constant without a body, so that no proof can see a value
of it. -/

namespace Sys2Proof

/-- The causes of a dispatch fault (R181). The last three are raised by services that no instruction in scope uses. -/
inductive Cause where
  | unknownOpcode
  | invalidAddress
  | unknownLabel
  | invalidRegister
  | stackOverflow
  | stackUnderflow
deriving DecidableEq, Repr

/-- A human-readable error text: any NON-EMPTY string of characters (R32, R183, U2), so a first character and the rest. -/
structure ErrorText where
  first : Char
  rest  : List Char
deriving DecidableEq, Repr, Inhabited

/-- The sizes of the bounded memories (R9, R65, U16). An argument of `Load`'s checks, so that a statement about `Load`
holds for every size. -/
structure Limits where
  imemMax  : Nat
  labelMax : Nat
  stackMax : Nat
deriving DecidableEq, Repr, Inhabited

/-- `IW` (R7): the fixed instruction width in address units, and the program counter's advance. -/
abbrev Config.instrWidth : Nat := 4

/-- `RI_CAP` (R7). -/
abbrev Config.recentInstrCap : Nat := 20

/-- `RJ_CAP` (R7). -/
abbrev Config.recentJumpsCap : Nat := 24

/-- `CODE_BASE` (R9, D10, U4), left open by the spec. Log entry 3. -/
opaque Config.codeBase : Word

/-- Any address; `labelBase` below takes it where the one relation of R9 allows. -/
opaque Config.labelBaseCandidate : Word

/-- `LABEL_BASE` (R9, D11): any address not above `CODE_BASE`. No rule reads it (R54). Log entry 4. -/
def Config.labelBase : Word :=
  if Config.labelBaseCandidate ≤ Config.codeBase then Config.labelBaseCandidate else Config.codeBase

/-- `IMEM_MAX`, `LABEL_MAX` and `STACK_MAX` of this hardware (R9, D25), left open. Log entry 5. -/
opaque Config.limits : Limits

/-- The wording of the error text (R183, U2), a FREE VALUE: it may depend on the cause, the information value and the
program counter at the fault. Log entry 6. -/
opaque Config.errorText : Cause → Word → Word → ErrorText

/-- DESIGN CHOICE, a FREE VALUE: the 32-bit information value of `StackOverflow` for a stack of `2^32` elements or more,
by the length. R183 gives the length, bounds no capacity, and states no truncation there. Log entry 18. -/
opaque Config.longStackInfo : Nat → Word

end Sys2Proof
end

