-- ==== Sys2Proof/Machine/State.lean ====
section
/-! DEFINITION. The state of the KL27 CORE: every element of spec/10_state.md rule R20, and no other, as plain data; the
ways a step can stop; and the state after `Reset` (R44). -/

namespace Sys2Proof.Machine

/-- The run state (R30). -/
inductive RunState where
  | halted
  | running
  | errored
deriving DecidableEq, Repr

/-- What a failing sub-operation hands to the dispatch site: the cause (R181) and the information value (R183). -/
structure DispatchFault where
  cause : Cause
  info  : Word
deriving DecidableEq, Repr

/-- The content of `lastError` (R32). -/
structure LastError where
  cause : Cause
  info  : Word
  text  : ErrorText
deriving DecidableEq, Repr

/-- A partial map, as the list of its entries by rising key: one entry per key, no entry for a key that maps to nothing.
The instruction store and the label table are such maps (R40, R41). `Memory.wf` (Machine/Memory.lean) is the form. -/
abbrev Memory (α : Type) := List (Nat × α)

/-- The complete state of the block (R20). -/
structure State where
  /-- `x[0] .. x[7]` (R21). -/
  regs        : Vector Half 8
  /-- The program counter (R25). -/
  pc          : Word
  /-- `state` (R30). -/
  runState    : RunState
  /-- `cycleCount` (R31). -/
  cycleCount  : Nat
  /-- `lastError` (R32). -/
  lastError   : Option LastError
  /-- The call/data stack (R33), bottom first: the last element is the top. -/
  stack       : List Word
  /-- `STACK_CAP` (R34). -/
  stackCap    : Nat
  /-- The recent-instruction buffer (R35), oldest first. -/
  recentInstr : List InstrRecord
  /-- The recent-jump buffer (R37), oldest first. -/
  recentJumps : List JumpPair
  /-- The instruction store (R40), keyed by address. -/
  imem        : Memory Entry
  /-- The label table (R41), keyed by label identifier. -/
  labels      : Memory Word
  /-- A `Load` has succeeded (R42). -/
  loaded      : Bool
  /-- A `Load` has failed (R42). -/
  loadFailed  : Bool
deriving DecidableEq, Repr

/-- Why a step stops with a fault. -/
inductive Fault where
  /-- `PreconditionError` (R190): a cycle requested while the CPU is `Halted` or `Errored`. Raised by `step`'s gate alone,
  with no state change (R191); `Errored` has no enabled step (R221). Safe: the rejection is the spec's own. -/
  | preconditionError
deriving DecidableEq, Repr

/-- Why a step has no meaning. -/
inductive Refusal where
  /-- An instruction of the opcode table that has no meaning yet. Raised by an arm of `exec` alone; no arm does. Safe. -/
  | notModelled (mnemonic : String)
deriving DecidableEq, Repr

/-- The state after the `Reset` operation (R44, R156): `Halted`, nothing loaded. -/
def State.reset : State where
  regs        := Vector.replicate 8 0
  pc          := 0
  runState    := .halted
  cycleCount  := 0
  lastError   := none
  stack       := []
  stackCap    := 0
  recentInstr := []
  recentJumps := []
  imem        := []
  labels      := []
  loaded      := false
  loadFailed  := false

end Sys2Proof.Machine
end

