-- ==== Sys2Proof/Machine/Flags.lean ====
section
/-! DEFINITION. The arithmetic of the block (R115). There are no status flags (R43): every sum and every masking below
wraps silently, sets no flag and raises nothing. -/

namespace Sys2Proof.Machine

/-- `trunc_16` (R11, R22): what a write of the integer `v` to a general register stores. -/
def trunc16 (v : Int) : Half :=
  BitVec.ofInt 16 v

/-- `trunc_32` (R11, R22): what a write of the integer `v` to the program counter or to a stack element stores. -/
def trunc32 (v : Int) : Word :=
  BitVec.ofInt 32 v

/-- `pc +_32 4` (R105, R115 b): the advance by the instruction width, modulo `2^32` (R27). -/
def nextPc (pc : Word) : Word :=
  pc + BitVec.ofNat 32 Config.instrWidth

/-- `CODE_BASE +_32 k` (R62, R115 c and d): a stored offset or the start offset, re-based, modulo `2^32`. -/
def rebase (offset : Word) : Word :=
  Config.codeBase + offset

end Sys2Proof.Machine
end

