-- ==== Sys2Proof/Machine/Memory.lean ====
section
/-! DEFINITION. The partial maps of the Memory Unit (spec/10_state.md R40, R41) as lists in one canonical form. -/

namespace Sys2Proof.Machine

variable {α : Type}

/-- What the map holds at a key; an unlisted key holds nothing (R51, R52). -/
def Memory.read : Memory α → Nat → Option α
  | [], _ => none
  | (k, v) :: rest, a => if a = k then some v else Memory.read rest a

/-- Every key is above `low` and the keys rise strictly. -/
def Memory.risingFrom (low : Nat) : Memory α → Bool
  | [] => true
  | (k, _) :: rest => decide (low < k) && Memory.risingFrom k rest

/-- The keys rise strictly. -/
def Memory.rising : Memory α → Bool
  | [] => true
  | (k, _) :: rest => Memory.risingFrom k rest

/-- The canonical form: keys strictly rising and below `bound`, the size of the key space (R51, R52). -/
def Memory.wf (bound : Nat) (m : Memory α) : Bool :=
  Memory.rising m && m.all fun p => decide (p.1 < bound)

/-- The map with `v` at key `a`. -/
def Memory.write (a : Nat) (v : α) : Memory α → Memory α
  | [] => [(a, v)]
  | (k, u) :: rest =>
    if a < k then (a, v) :: (k, u) :: rest
    else if a = k then (k, v) :: rest
    else (k, u) :: Memory.write a v rest

/-- The map that a list of key and value pairs describes. `Load` gives it lists without a repeated key (R158, R159). -/
def Memory.ofPairs (ps : List (Nat × α)) : Memory α :=
  ps.foldr (fun p m => Memory.write p.1 p.2 m) []

end Sys2Proof.Machine
end

