-- ==== Sys2Proof/Machine/Operands.lean ====
section
/-! DEFINITION. The operand form: one contiguous 16-bit field, taken as it is (R85). There are no register fields and no
addressing modes. -/

namespace Sys2Proof.Machine

/-- `zext_32` of a 16-bit field (R11, R85). -/
def zext32 (v : Half) : Word :=
  v.setWidth 32

/-- The key under which the label table holds an identifier (R41, R52, R86). -/
def labelKey (id : Half) : Nat :=
  id.toNat

/-- The key under which the instruction store holds an address: the address itself, unchanged (R51, R64). -/
def instrKey (a : Word) : Nat :=
  a.toNat

end Sys2Proof.Machine
end

