-- ==== Sys2Proof/Machine/Ops.lean ====
section
/-! DEFINITION. The named operations over the state: the diagnostics buffers, the Memory Unit's reads, the register file
and stack services, and the one way into `Errored`. -/

namespace Sys2Proof.Machine

/-! ## Diagnostics buffers -/

/-- `push(buf, e)` (R38): at capacity, the oldest entry goes first; then `e` is the newest. -/
def pushBuffer {α : Type} (capacity : Nat) (buf : List α) (e : α) : List α :=
  (if buf.length = capacity then buf.tail else buf) ++ [e]

/-- A push to the recent-instruction buffer (R35). -/
def State.recordInstr (r : InstrRecord) (s : State) : State :=
  { s with recentInstr := pushBuffer Config.recentInstrCap s.recentInstr r }

/-- A push to the recent-jump buffer (R37). -/
def State.recordJump (p : JumpPair) (s : State) : State :=
  { s with recentJumps := pushBuffer Config.recentJumpsCap s.recentJumps p }

/-! ## Program counter, counter, run state -/

/-- `pc <- v`. -/
def State.setPc (v : Word) (s : State) : State :=
  { s with pc := v }

/-- Step 3 of the cycle (R105). -/
def State.advancePc (s : State) : State :=
  s.setPc (nextPc s.pc)

/-- Step 1 of the cycle (R102). -/
def State.countCycle (s : State) : State :=
  { s with cycleCount := s.cycleCount + 1 }

/-- `state <- r`. -/
def State.setRunState (r : RunState) (s : State) : State :=
  { s with runState := r }

/-- `lastError <- (cause, info, text)` (R32). -/
def State.setLastError (e : LastError) (s : State) : State :=
  { s with lastError := some e }

/-! ## Faults -/

/-- The code of a cause (R181); 0 stands for no error. -/
def Cause.code : Cause → Nat
  | .unknownOpcode => 1
  | .invalidAddress => 2
  | .unknownLabel => 3
  | .invalidRegister => 4
  | .stackOverflow => 5
  | .stackUnderflow => 6

/-- The code of the `lastError` element (R181): 0 while there is none. -/
def errorCode (e : Option LastError) : Nat :=
  match e with
  | none => 0
  | some e => Cause.code e.cause

/-- The sentinel record `{address: current PC, opcode: -1, operand: 0}` (R36). -/
def sentinel (pc : Word) : InstrRecord :=
  ⟨pc, -1, 0⟩

/-- What `lastError` holds after a fault at program counter `pc` (R183). -/
def faultReport (f : DispatchFault) (pc : Word) : LastError :=
  ⟨f.cause, f.info, Config.errorText f.cause f.info pc⟩

/-- `Enter(cause, info)` (R185), the one operation that every `raise` performs: the CPU is `Errored`, the sentinel with
the current program counter is recorded, `lastError` is set. There is no handler: `pc` stays. -/
def State.enterErrored (f : DispatchFault) (s : State) : State :=
  ((s.setRunState .errored).recordInstr (sentinel s.pc)).setLastError (faultReport f s.pc)

/-- Containment at the dispatch site (R109): a sub-operation's failure ends the handler in the Errored entry; its result
goes on to the rest of the handler. `s` is the state the sub-operation was issued in: the handler's earlier writes stay. -/
def contain {α : Type} (r : Except DispatchFault α) (s : State) (onOk : α → State) : State :=
  match r with
  | .ok a => onOk a
  | .error f => s.enterErrored f

/-! ## Memory Unit -/

/-- `ReadInstruction(a)` (R60). -/
def State.readInstruction (a : Word) (s : State) : Except DispatchFault InstrRecord :=
  match Memory.read s.imem (instrKey a) with
  | some e => .ok ⟨a, (e.opcode.toNat : Int), e.operand⟩
  | none => .error ⟨.invalidAddress, a⟩

/-- `ResolveLabel(id)` (R61). -/
def State.resolveLabel (id : Half) (s : State) : Except DispatchFault Word :=
  match Memory.read s.labels (labelKey id) with
  | some offset => .ok offset
  | none => .error ⟨.unknownLabel, zext32 id⟩

/-- `LabelTarget(id)` (R62): lookup, then re-basing, both the Memory Unit's (R63). -/
def State.labelTarget (id : Half) (s : State) : Except DispatchFault Word :=
  match s.resolveLabel id with
  | .ok offset => .ok (rebase offset)
  | .error f => .error f

/-! ## Register file -/

/-- `RegGet(idx)` (R136). The failure's information value is the index, truncated (R183). -/
def State.regGet (idx : Int) (s : State) : Except DispatchFault Half :=
  if h : 0 ≤ idx ∧ idx < 8 then .ok (s.regs[idx.toNat]'(by omega))
  else .error ⟨.invalidRegister, trunc32 idx⟩

/-- `RegSet(idx, v)` (R137): the value is masked to 16 bits. -/
def State.regSet (idx v : Int) (s : State) : Except DispatchFault State :=
  if h : 0 ≤ idx ∧ idx < 8 then .ok { s with regs := s.regs.set idx.toNat (trunc16 v) (by omega) }
  else .error ⟨.invalidRegister, trunc32 idx⟩

/-! ## Call/data stack -/

/-- The information value of `StackOverflow` (R144, R183): the length, where 32 bits hold it. DESIGN CHOICE beyond them,
where the spec states no value: a free value (log entry 18). -/
def stackOverflowInfo (length : Nat) : Word :=
  if length < 2 ^ 32 then BitVec.ofNat 32 length else Config.longStackInfo length

/-- `StackPush(v)` (R142): the value is masked to 32 bits; a full stack does not change. The failure's information value
is `stackOverflowInfo` (log entry 12; for a length that 32 bits do not hold, the model's choice, log entry 18). -/
def State.stackPush (v : Int) (s : State) : Except DispatchFault State :=
  if s.stack.length < s.stackCap then .ok { s with stack := s.stack ++ [trunc32 v] }
  else .error ⟨.stackOverflow, stackOverflowInfo s.stack.length⟩

/-- `StackPop()` (R143): the top and the state without it; an empty stack does not change. -/
def State.stackPop (s : State) : Except DispatchFault (Word × State) :=
  match s.stack.getLast? with
  | some top => .ok (top, { s with stack := s.stack.dropLast })
  | none => .error ⟨.stackUnderflow, 0⟩

/-- A handler's request to the stack's one port (R145), data or control alike. -/
inductive StackRequest where
  | push (v : Int)
  | pop
deriving DecidableEq, Repr

/-- One request, served: the value it popped, if it is a pop, and the state after. A failed request changes nothing. -/
def State.stackRequest (r : StackRequest) (s : State) : Except DispatchFault (List Word × State) :=
  match r with
  | .push v => (s.stackPush v).map fun t => ([], t)
  | .pop => s.stackPop.map fun (top, t) => ([top], t)

/-- A handler's requests, served in the order it issues them (R145): the popped values in that order and the state after.
The first failure ends them (R109); the state is then the one the failed request met, with every request before it
served. -/
def State.serveStack (rs : List StackRequest) (s : State) : Except DispatchFault (List Word) × State :=
  match rs with
  | [] => (.ok [], s)
  | r :: rest =>
    match s.stackRequest r with
    | .ok (popped, t) =>
      match State.serveStack rest t with
      | (result, u) => (result.map (popped ++ ·), u)
    | .error f => (.error f, s)

/-- A handler that issues `rs` and goes on with what they popped, contained (R109, R144). A request that depends on a
popped value is issued by the rest of the handler, `onOk`. -/
def State.withStack (rs : List StackRequest) (s : State) (onOk : List Word → State → State) : State :=
  match s.serveStack rs with
  | (result, t) => contain result t fun popped => onOk popped t

end Sys2Proof.Machine
end

