-- ==== Sys2Proof/Machine/Control.lean ====
section
/-! DEFINITION. The opcode handlers: step 5 of the cycle (R107), each on the state after steps 1 to 4, where `pc` is
already advanced (R105, R108). -/

namespace Sys2Proof.Machine

/-- The no-op handler (R120): nothing. -/
def execNop (_operand : Half) (s : State) : Host.Outcome State Fault Refusal :=
  .next s

/-- The label-jump handler (R125): resolve and re-base, record the pair of the advanced program counter and the target
(R129), overwrite the program counter. The target is not checked (R130). An undefined label takes the Errored entry
before either write (R127). -/
def execJmpl (label : Half) (s : State) : Host.Outcome State Fault Refusal :=
  .next (contain (s.labelTarget label) s fun target =>
    (s.recordJump ⟨s.pc, target⟩).setPc target)

/-- The fallback arm (R110), for an opcode value with no handler. -/
def execUnknown (v : Half) (s : State) : Host.Outcome State Fault Refusal :=
  .next (s.enterErrored ⟨.unknownOpcode, zext32 v⟩)

end Sys2Proof.Machine
end

