-- ==== Sys2Proof/Machine/Cycle.lean ====
section
/-! DEFINITION. The cycle common to every instruction (spec/40_cycle_and_dispatch.md, R112), what `RunCycle` returns
(R111), and the placing of one instruction where the next cycle fetches. -/

namespace Sys2Proof.Machine

/-- Steps 3 and 4 (R105, R106), after a fetch that gave the record `r`. -/
def State.afterFetch (r : InstrRecord) (s : State) : State :=
  s.advancePc.recordInstr r

/-- The entry a fetched record came from: its opcode and operand fields. -/
def entryOfRecord (r : InstrRecord) : Entry :=
  ⟨trunc16 r.opcode, r.operand⟩

/-- Step 5 (R107): the opcode's value alone selects the handler, or the fallback arm (R110). -/
def dispatch (e : Entry) (s : State) : Host.Outcome State Fault Refusal :=
  match decodeEntry e with
  | .ok i => exec i s
  | .error (.unknownOpcode v) => execUnknown v s
  | .error (.truncated _) => execUnknown e.opcode s

/-- Steps 1 to 5 of an accepted cycle (R112). A fetch failure ends the cycle before steps 3 to 5 (R104). -/
def cycle (s : State) : Host.Outcome State Fault Refusal :=
  match s.countCycle.readInstruction s.pc with
  | .error f => .next (s.countCycle.enterErrored f)
  | .ok r => dispatch (entryOfRecord r) (s.countCycle.afterFetch r)

/-- `RunCycle` with its gate (R161, R190): a cycle runs only when `Running`. -/
def gatedCycle (s : State) : Host.Outcome State Fault Refusal :=
  match s.runState with
  | .running => cycle s
  | .halted => .fault .preconditionError
  | .errored => .fault .preconditionError

/-- What an accepted `RunCycle` returns (R111). -/
inductive CycleResult where
  | done (r : InstrRecord)
  | faulted (r : Option InstrRecord)
deriving DecidableEq, Repr

/-- The record a cycle from `s` fetches (R103), none if its fetch fails. -/
def State.fetched (s : State) : Option InstrRecord :=
  match s.readInstruction s.pc with
  | .ok r => some r
  | .error _ => none

/-- Step 6 (R111), from what was fetched and the run state the cycle left: a dispatch fault leaves `Errored`. -/
def cycleResult (fetched : Option InstrRecord) (after : RunState) : CycleResult :=
  match fetched, after with
  | some r, .errored => .faulted (some r)
  | some r, .running => .done r
  | some r, .halted => .done r
  | none, _ => .faulted none

/-- The state in which the next cycle fetches the entry `e`: `e` stands in the instruction store at the program counter
and the CPU is loaded and started. It stands for the load from outside (log entry 2). -/
def State.placeEntry (e : Entry) (s : State) : State :=
  { s with
    imem := Memory.write (instrKey s.pc) e s.imem
    runState := .running
    loaded := true
    loadFailed := false }

end Sys2Proof.Machine
end

