-- ==== Sys2Proof/Machine/Step.lean ====
section
/-! DEFINITION. One step of the machine: one `RunCycle` (R12, R112). -/

namespace Sys2Proof.Machine

/-- One `RunCycle` request (R161). -/
def step (s : State) : Host.Outcome State Fault Refusal :=
  gatedCycle s

/-- `s` with the instruction whose table bits are `w` where the next cycle fetches. -/
def State.withFetchWord (s : State) (nbits w : Nat) : State :=
  s.placeEntry (fieldsOfWord (tableWord nbits w))

end Sys2Proof.Machine
end

