-- ==== Sys2Proof/Machine/HostOps.lean ====
section
/-! DEFINITION. The host operations (spec/44_host_interface.md, R155): reset, load, start, run one cycle, and the reads,
each one atomic function of the state that answers a result and the state after it. `step` is the `RunCycle` one. -/

namespace Sys2Proof.Machine

/-! ## Arguments and results -/

/-- The arguments of `Load` (R157): instructions as address and fields, labels as identifier and offset, the start offset
and the stack capacity. -/
structure LoadArgs where
  instrs      : List (Word × Entry)
  labelList   : List (Half × Word)
  startOffset : Word
  cap         : Nat
deriving DecidableEq, Repr

/-- The reasons of a `LoadError` (R158). -/
inductive LoadErrorReason where
  | secondLoad
  | emptyStore
  | duplicateLabel
  | duplicateAddress
  | capacity
deriving DecidableEq, Repr

/-- The operations the host may issue, and no others (R155). -/
inductive HostOp where
  | reset
  | load (args : LoadArgs)
  | start
  | runCycle
  | readState
  | readCycleCount
  | readLastError
  | readPC
  | readReg (idx : Int)
  | readRecentInstr
  | readRecentJumps
deriving DecidableEq, Repr

/-- What an operation reports to the host (R155, R162). -/
inductive OpResult where
  /-- `Reset` has no result. -/
  | nothing
  | ok
  | loadError (reason : LoadErrorReason)
  | preconditionError
  | cycle (result : CycleResult)
  | runState (value : RunState)
  | cycleCount (value : Nat)
  | lastError (value : Option LastError)
  | pc (value : Word)
  | reg (value : Half)
  /-- A register read with an index outside `0 .. 7` (R194). -/
  | invalidRegister
  /-- A snapshot, oldest first (R162, R163). -/
  | recentInstr (snapshot : List InstrRecord)
  | recentJumps (snapshot : List JumpPair)
  /-- The model's own: an instruction without a meaning. No arm of `exec` gives it. -/
  | refused (reason : Refusal)
deriving DecidableEq, Repr

/-! ## Load -/

/-- Some element stands twice in the list. -/
def hasRepeat : List Nat → Bool
  | [] => false
  | a :: rest => rest.contains a || hasRepeat rest

/-- The instruction list as key and value pairs. -/
def LoadArgs.instrPairs (args : LoadArgs) : List (Nat × Entry) :=
  args.instrs.map fun p => (instrKey p.1, p.2)

/-- The label list as key and value pairs. -/
def LoadArgs.labelPairs (args : LoadArgs) : List (Nat × Word) :=
  args.labelList.map fun p => (labelKey p.1, p.2)

/-- The checks of `Load` on its arguments, 2 to 5 of R158, in that order; the first that fails decides. Nothing else is
checked (R84, R158). -/
def LoadArgs.check (lim : Limits) (args : LoadArgs) : Option LoadErrorReason :=
  if args.instrs = [] then some .emptyStore
  else if hasRepeat (args.labelPairs.map Prod.fst) then some .duplicateLabel
  else if hasRepeat (args.instrPairs.map Prod.fst) then some .duplicateAddress
  else if lim.imemMax < args.instrs.length ∨ lim.labelMax < args.labelList.length ∨ lim.stackMax < args.cap then
    some .capacity
  else none

/-- The effects of a `Load` that passes every check (R159). -/
def State.install (args : LoadArgs) (s : State) : State :=
  { s with
    imem := Memory.ofPairs args.instrPairs
    labels := Memory.ofPairs args.labelPairs
    stackCap := args.cap
    stack := []
    pc := rebase args.startOffset
    loaded := true }

/-- `Load` (R157 to R159). Check 1 comes first and changes nothing; a malformed input is remembered. -/
def loadOp (lim : Limits) (args : LoadArgs) (s : State) : OpResult × State :=
  if s.loaded = true ∨ s.loadFailed = true then (.loadError .secondLoad, s)
  else
    match args.check lim with
    | some reason => (.loadError reason, { s with loadFailed := true })
    | none => (.ok, s.install args)

/-! ## Reset, start, run -/

/-- `Reset` (R156): every element to its reset value, in every state. -/
def resetOp (_s : State) : OpResult × State :=
  (.nothing, State.reset)

/-- `Start` (R160). -/
def startOp (s : State) : OpResult × State :=
  if s.runState = .halted ∧ s.loaded = true ∧ s.loadFailed = false then (.ok, s.setRunState .running)
  else (.preconditionError, s)

/-- `RunCycle` (R161): a rejected one changes nothing (R191). -/
def runCycleOp (s : State) : OpResult × State :=
  match step s with
  | .next t => (.cycle (cycleResult s.fetched t.runState), t)
  | .fault .preconditionError => (.preconditionError, s)
  | .refused reason => (.refused reason, s)

/-! ## Reads -/

/-- `ReadReg(idx)` (R162): the failure is the read's own and changes nothing (R194). -/
def readRegResult (idx : Int) (s : State) : OpResult :=
  match s.regGet idx with
  | .ok v => .reg v
  | .error _ => .invalidRegister

/-! ## All operations -/

/-- One host operation, for a hardware with the memory sizes `lim`. -/
def hostOp (lim : Limits) (op : HostOp) (s : State) : OpResult × State :=
  match op with
  | .reset => resetOp s
  | .load args => loadOp lim args s
  | .start => startOp s
  | .runCycle => runCycleOp s
  | .readState => (.runState s.runState, s)
  | .readCycleCount => (.cycleCount s.cycleCount, s)
  | .readLastError => (.lastError s.lastError, s)
  | .readPC => (.pc s.pc, s)
  | .readReg idx => (readRegResult idx s, s)
  | .readRecentInstr => (.recentInstr s.recentInstr, s)
  | .readRecentJumps => (.recentJumps s.recentJumps, s)

/-- A sequence of host operations, one after another (R165): the results in order and the last state. -/
def hostOps (lim : Limits) : List HostOp → State → List OpResult × State
  | [], s => ([], s)
  | op :: rest, s =>
    ((hostOp lim op s).1 :: (hostOps lim rest (hostOp lim op s).2).1, (hostOps lim rest (hostOp lim op s).2).2)

/-- A host operation on this hardware, whose memory sizes the spec leaves open (R9). -/
def hostOpHere (op : HostOp) (s : State) : OpResult × State :=
  hostOp Config.limits op s

end Sys2Proof.Machine
end

