-- ==== Sys2Proof/Safety.lean ====
section
/-! DEFINITION. What counts as a safe run: the invariant of the machine, the states a host can bring it to, and the loader
obligations under which a program never faults (spec/70_reset_and_hazards.md R218). -/

namespace Sys2Proof.Machine

/-- The states that host operations reach from `Reset`, on a hardware with the memory sizes `lim` (R155, R219). -/
inductive Reachable (lim : Limits) : State → Prop where
  | reset : Reachable lim State.reset
  | op (o : HostOp) {s : State} : Reachable lim s → Reachable lim (hostOp lim o s).2

/-- The invariant of the block. Each field cites the rule it comes from. -/
structure State.Inv (lim : Limits) (s : State) : Prop where
  /-- The instruction store is in canonical form over `2^32` addresses (R51). -/
  imem_wf : Memory.wf (2 ^ 32) s.imem = true
  /-- The label table is in canonical form over `2^16` identifiers (R52). -/
  labels_wf : Memory.wf (2 ^ 16) s.labels = true
  /-- R40, R65. -/
  imem_bound : s.imem.length ≤ lim.imemMax
  /-- R41, R65. -/
  labels_bound : s.labels.length ≤ lim.labelMax
  /-- R10. -/
  cap_bound : s.stackCap ≤ lim.stackMax
  /-- R33. -/
  stack_bound : s.stack.length ≤ s.stackCap
  /-- R35. -/
  instr_buffer_bound : s.recentInstr.length ≤ Config.recentInstrCap
  /-- R37. -/
  jump_buffer_bound : s.recentJumps.length ≤ Config.recentJumpsCap
  /-- R36. -/
  records_wf : ∀ r ∈ s.recentInstr, r.wellFormed = true
  /-- A record of a fetched instruction is the instruction that stands at its address (R36, R59, R106). -/
  trace_faithful : ∀ r ∈ s.recentInstr, 0 ≤ r.opcode → s.readInstruction r.address = .ok r
  /-- Every recorded jump went to the re-based offset of a label (R125, R132). -/
  jump_targets : ∀ p ∈ s.recentJumps, ∃ id, s.labelTarget id = .ok p.target
  /-- R42, R158. -/
  load_once : ¬ (s.loaded = true ∧ s.loadFailed = true)
  /-- Before a `Load` both stores are empty (R44, R59). -/
  unloaded_empty : s.loaded = false → s.imem = [] ∧ s.labels = [] ∧ s.stackCap = 0 ∧ s.pc = 0
  /-- R158, check 2. -/
  loaded_nonempty : s.loaded = true → s.imem ≠ []
  /-- No cycle has run in a `Halted` CPU (R44, R192). -/
  halted_fresh : s.runState = .halted → s.cycleCount = 0 ∧ s.recentInstr = [] ∧ s.recentJumps = []
  /-- Only a loaded CPU leaves `Halted` (R160). -/
  started_loaded : s.runState ≠ .halted → s.loaded = true
  /-- While `Running`, the buffer holds the last cycles' instructions, one a cycle, and no sentinel (R113, R185). -/
  running_trace : s.runState = .running →
    s.recentInstr.length = min Config.recentInstrCap s.cycleCount ∧ ∀ r ∈ s.recentInstr, 0 ≤ r.opcode
  /-- At most one pair a cycle (R113). -/
  jumps_counted : s.recentJumps.length ≤ s.cycleCount
  /-- An `Errored` CPU has its description and its sentinel, newest, with the program counter (R32, R185). -/
  errored_report : s.runState = .errored →
    s.lastError.isSome = true ∧ s.recentInstr.getLast? = some (sentinel s.pc) ∧ 0 < s.cycleCount

/-! ## Programs that never fault -/

/-- An instruction stands at the address. -/
def State.HasInstr (s : State) (a : Word) : Prop :=
  ∃ e, Memory.read s.imem (instrKey a) = some e

/-- The loaded code is closed: from every loaded instruction, execution goes to a loaded instruction (R218, rows 4 to 7,
row 6 read off the code: after a `nop` the next address, after a `jmpl` the label's). -/
structure State.ClosedCode (s : State) : Prop where
  known : ∀ a e, Memory.read s.imem (instrKey a) = some e → e.opcode = 0#16 ∨ e.opcode = 1#16
  falls : ∀ a e, Memory.read s.imem (instrKey a) = some e → e.opcode = 0#16 → s.HasInstr (nextPc a)
  jumps : ∀ a e, Memory.read s.imem (instrKey a) = some e → e.opcode = 1#16 →
    ∃ k, Memory.read s.labels (labelKey e.operand) = some k ∧ s.HasInstr (rebase k)

/-- A run that is going well: `Running`, on a loaded instruction of closed code. `Errored` is the fault outcome (R189,
R221). -/
structure State.OnTrack (s : State) : Prop where
  running : s.runState = .running
  here : s.HasInstr s.pc
  closed : s.ClosedCode

/-- Rows 1 and 2 of R218: entries do not overlap and lie at or above `CODE_BASE`. Breaking them faults nothing. -/
structure LoadArgs.WellPlaced (args : LoadArgs) : Prop where
  apart : ∀ p ∈ args.instrs, ∀ q ∈ args.instrs, p.1.toNat < q.1.toNat → p.1.toNat + Config.instrWidth ≤ q.1.toNat
  above : ∀ p ∈ args.instrs, Config.codeBase ≤ p.1

/-- Rows 3 to 7 of R218, on the `Load` arguments. -/
structure LoadArgs.Closed (args : LoadArgs) : Prop where
  /-- Row 3. -/
  start : ∃ e, (rebase args.startOffset, e) ∈ args.instrs
  /-- Row 4. -/
  labels : ∀ p ∈ args.instrs, p.2.opcode = 1#16 → ∃ k, (p.2.operand, k) ∈ args.labelList
  /-- Row 5. -/
  targets : ∀ l ∈ args.labelList, ∃ e, (rebase l.2, e) ∈ args.instrs
  /-- Row 6, with rows 3 and 5: the address after every `nop`. -/
  falls : ∀ p ∈ args.instrs, p.2.opcode = 0#16 → ∃ e, (nextPc p.1, e) ∈ args.instrs
  /-- Row 7. -/
  known : ∀ p ∈ args.instrs, p.2.opcode = 0#16 ∨ p.2.opcode = 1#16

/-- The CPU that the boot sequence `Reset`, `Load`, `Start` leaves (R217). -/
def booted (lim : Limits) (args : LoadArgs) : State :=
  (hostOps lim [.reset, .load args, .start] State.reset).2

end Sys2Proof.Machine
end

