-- ==== Sys2Proof/Certificates/Slice0/Obligations.lean ====
section
/-! DEFINITION. The statements about the model, each from the rules of spec/ that its docstring names. -/

open Sys2Proof Sys2Proof.Machine

/-! ## Encoding -/

/-- R81 to R83 (the field widths and positions are the spec's own decision D5, the byte order D6; log entry 8):
decoding an encoded instruction gives it back, as a word, as an entry of the store and as bytes with anything after
them. -/
def Obligations.DecodeOfEncodeIsIdentity : Prop :=
  ∀ (i : Instr) (rest : List Byte), i.wellFormed = true →
    decodeWord (encode i) = .ok i ∧ decodeEntry (encodeEntry i) = .ok i ∧
    decodeBytes (encodeBytes i ++ rest) = .ok (i, rest)

/-- R81, R82, R88 (the field layout is the spec's own decision D5, the byte order D6; log entries 8 and 10): what
decodes to an instruction is that instruction's encoding, so each word and each image has one meaning. -/
def Obligations.DecodedWordIsTheEncoding : Prop :=
  (∀ (w : Word) (i : Instr), decodeWord w = .ok i → encode i = w) ∧
  ∀ (image rest : List Byte) (i : Instr), decodeBytes image = .ok (i, rest) → image = encodeBytes i ++ rest

/-- R83, derived from R81 and the spec's own decision D5 (log entry 8): decoding into fields is total, encoding is its
inverse, and an opcode with no handler is rejected at dispatch. -/
def Obligations.FieldDecodingIsTotalAndInverse : Prop :=
  (∀ w : Word, fieldsOfWord w = ⟨w.extractLsb' 16 16, w.extractLsb' 0 16⟩) ∧
  (∀ o d : Half, wordOfFields ⟨o, d⟩ = o ++ d ∧ fieldsOfWord (wordOfFields ⟨o, d⟩) = ⟨o, d⟩) ∧
  (∀ w : Word, wordOfFields (fieldsOfWord w) = w) ∧
  ∀ (w : Word) (s : State), (fieldsOfWord w).opcode ≠ 0#16 → (fieldsOfWord w).opcode ≠ 1#16 →
    dispatch (fieldsOfWord w) s = .next (s.enterErrored ⟨.unknownOpcode, (fieldsOfWord w).opcode.setWidth 32⟩)

/-- R88: the opcode map, as match and mask over the word; every other word is illegal. -/
def Obligations.OpcodeMapByMatchAndMask : Prop :=
  ∀ w : Word,
    (w &&& 0xFFFF0000#32 = 0x00000000#32 → decodeWord w = .ok (.nop (w.extractLsb' 0 16))) ∧
    (w &&& 0xFFFF0000#32 = 0x00010000#32 → decodeWord w = .ok (.jmpl (w.extractLsb' 0 16))) ∧
    (w &&& 0xFFFF0000#32 ≠ 0x00000000#32 → w &&& 0xFFFF0000#32 ≠ 0x00010000#32 →
      decodeWord w = .error (.unknownOpcode (w.extractLsb' 16 16)))

/-- R90: the closed mapping has three arms. -/
def Obligations.ClassifyHasThreeArms : Prop :=
  classify 0#16 = .nop ∧ classify 1#16 = .labelJump ∧
  ∀ v : Half, v ≠ 0#16 → v ≠ 1#16 → classify v = .unknown v

/-- R82, the spec's own decision D6 (log entry 10): an instruction's image is its word in big-endian order, and no
byte of it is lost. -/
def Obligations.ImageIsBigEndian : Prop :=
  (∀ w : Word, bytesOfWord w = [w.extractLsb' 24 8, w.extractLsb' 16 8, w.extractLsb' 8 8, w.extractLsb' 0 8]) ∧
  ∀ b0 b1 b2 b3 : Byte, bytesOfWord (wordOfBytes b0 b1 b2 b3) = [b0, b1, b2, b3]

/-- Words written out from the encoding of R81, R82 and R88. Every clause rests on the field layout, the spec's own
decision D5 (log entry 8), and on the byte order, its decision D6 (log entry 10). -/
def Obligations.WrittenWordsDecode : Prop :=
  decodeBytes [0x00, 0x00, 0x00, 0x00] = .ok (.nop 0, []) ∧
  decodeBytes [0x00, 0x00, 0x12, 0x34] = .ok (.nop 0x1234, []) ∧
  decodeBytes [0x00, 0x01, 0x00, 0x07] = .ok (.jmpl 7, []) ∧
  decodeBytes [0x00, 0x01, 0xFF, 0xFF] = .ok (.jmpl 65535, []) ∧
  decodeBytes [0x00, 0x02, 0x00, 0x00] = .error (.unknownOpcode 2) ∧
  decodeBytes [0xFF, 0xFF, 0x00, 0x00] = .error (.unknownOpcode 65535) ∧
  decodeBytes [0x01, 0x00, 0x00, 0x00] = .error (.unknownOpcode 256)

/-! ## Fetch, step, dispatch -/

/-- R60, R61, R183: the Memory Unit's two lookups answer what its stores hold, fail where a key is absent, and depend on
nothing else; a failed instruction read ends in a next state, never in a failure of the request. That a failing lookup
answers the information value of R183 (the spec's own decision D17) beside the cause is the model's reading (log entry
12). -/
def Obligations.MemoryUnitLookups : Prop :=
  (∀ (s : State) (a : Word) (e : Entry), Memory.read s.imem a.toNat = some e →
    s.readInstruction a = .ok ⟨a, (e.opcode.toNat : Int), e.operand⟩) ∧
  (∀ (s : State) (a : Word), Memory.read s.imem a.toNat = none → s.readInstruction a = .error ⟨.invalidAddress, a⟩) ∧
  (∀ (s : State) (id : Half) (k : Word), Memory.read s.labels id.toNat = some k → s.resolveLabel id = .ok k) ∧
  (∀ (s : State) (id : Half), Memory.read s.labels id.toNat = none →
    s.resolveLabel id = .error ⟨.unknownLabel, id.setWidth 32⟩) ∧
  (∀ (s t : State) (a : Word), s.imem = t.imem → s.readInstruction a = t.readInstruction a) ∧
  (∀ (s t : State) (id : Half), s.labels = t.labels → s.resolveLabel id = t.resolveLabel id) ∧
  ∀ (s : State) (f : DispatchFault), s.runState = .running → s.readInstruction s.pc = .error f →
    ∃ t, step s = .next t ∧ t.runState = .errored

/-- R62, R63 (the sum modulo `2^32` is the spec's own decision D12; log entry 8): a label's target is its stored offset,
re-based by the Memory Unit; an undefined label has none. -/
def Obligations.LabelTargetIsRebasedOffset : Prop :=
  (∀ (s : State) (id : Half) (k : Word), s.resolveLabel id = .ok k →
    ∃ target, s.labelTarget id = .ok target ∧ target.toNat = (Config.codeBase.toNat + k.toNat) % 2 ^ 32) ∧
  ∀ (s : State) (id : Half) (f : DispatchFault), s.resolveLabel id = .error f → s.labelTarget id = .error f

/-- R103, R105 to R107: a cycle that fetches the entry at the program counter counts itself, advances the program
counter and records the fetched instruction, whatever its opcode; then the opcode's value alone selects the no-op
handler, the label-jump handler or the fallback arm. -/
def Obligations.AdvanceAndRecordPrecedeDispatch : Prop :=
  ∀ (s t : State) (o d : Half), s.runState = .running → Memory.read s.imem s.pc.toNat = some ⟨o, d⟩ →
    t = { s with
      cycleCount := s.cycleCount + 1
      pc := s.pc + 4
      recentInstr := pushBuffer 20 s.recentInstr ⟨s.pc, (o.toNat : Int), d⟩ } →
    (o = 0#16 → step s = exec (.nop d) t) ∧ (o = 1#16 → step s = exec (.jmpl d) t) ∧
    (o ≠ 0#16 → o ≠ 1#16 → step s = .next (t.enterErrored ⟨.unknownOpcode, o.setWidth 32⟩))

/-- R100, R112: when the entry at the program counter decodes to `i`, a step in `Running` counts the cycle, advances the
program counter, records the fetched instruction, and is `exec i` there. -/
def Obligations.StepRunsTheDecodedInstruction : Prop :=
  ∀ (s : State) (e : Entry) (i : Instr), s.runState = .running → Memory.read s.imem s.pc.toNat = some e →
    decodeEntry e = .ok i →
    step s = exec i { s with
      cycleCount := s.cycleCount + 1
      pc := s.pc + 4
      recentInstr := pushBuffer 20 s.recentInstr ⟨s.pc, (e.opcode.toNat : Int), e.operand⟩ }

/-- The model's own placing of a word (log entry 2): the next step runs exactly the instruction the decoder reads from
it. -/
def Obligations.PlacedWordRunsNext : Prop :=
  ∀ (s : State) (w : Nat) (i : Instr), decodeTableWord 32 w = some i →
    step (s.withFetchWord 32 w) = exec i { s.withFetchWord 32 w with
      cycleCount := s.cycleCount + 1
      pc := s.pc + 4
      recentInstr := pushBuffer 20 s.recentInstr
        ⟨s.pc, ((encodeEntry i).opcode.toNat : Int), (encodeEntry i).operand⟩ }

/-- R161: a cycle request is accepted exactly in `Running`, and then answers what a cycle gives; in `Halted` and
`Errored` it is rejected and changes nothing. It is never refused. -/
def Obligations.CyclesRunExactlyWhenRunning : Prop :=
  ∀ (lim : Limits) (s : State),
    (s.runState = .running → ∃ t result, step s = .next t ∧ hostOp lim .runCycle s = (.cycle result, t)) ∧
    (s.runState = .halted ∨ s.runState = .errored →
      step s = .fault .preconditionError ∧ hostOp lim .runCycle s = (.preconditionError, s)) ∧
    ∀ reason, step s ≠ .refused reason

/-- R104, R183 (what a failed fetch leaves out is the spec's own decision D15, its sentinel D16, the information value
D17; log entry 8): a fetch fault counts the cycle, enters `Errored` with the faulting address, and skips steps 3 to 5. -/
def Obligations.FetchFaultEntersErrored : Prop :=
  ∀ s : State, s.runState = .running → Memory.read s.imem s.pc.toNat = none →
    ∃ t text, step s = .next t ∧
      t = { s with
        cycleCount := s.cycleCount + 1
        runState := .errored
        recentInstr := pushBuffer 20 s.recentInstr ⟨s.pc, -1, 0⟩
        lastError := some ⟨.invalidAddress, s.pc, text⟩ } ∧
      runCycleOp s = (.cycle (.faulted none), t)

/-- R110, R183 (the advanced program counter in the sentinel is the spec's own decision D13, the information value D17;
log entry 8): an opcode with no handler, once fetched and recorded, enters `Errored` with the advanced program counter. -/
def Obligations.UnknownOpcodeEntersErrored : Prop :=
  ∀ (s : State) (o d : Half), s.runState = .running → Memory.read s.imem s.pc.toNat = some ⟨o, d⟩ →
    o ≠ 0#16 → o ≠ 1#16 →
    ∃ t text, step s = .next t ∧
      t = { s with
        cycleCount := s.cycleCount + 1
        pc := s.pc + 4
        runState := .errored
        recentInstr := pushBuffer 20 (pushBuffer 20 s.recentInstr ⟨s.pc, (o.toNat : Int), d⟩) ⟨s.pc + 4, -1, 0⟩
        lastError := some ⟨.unknownOpcode, o.setWidth 32, text⟩ } ∧
      runCycleOp s = (.cycle (.faulted (some ⟨s.pc, (o.toNat : Int), d⟩)), t)

/-! ## nop -/

/-- R120: the no-op handler completes in every state and changes nothing. -/
def Obligations.NopCompletes : Prop :=
  ∀ (s : State) (operand : Half), exec (.nop operand) s = .next s

/-- R120: a no-op has opcode field 0 and any operand; a cycle that fetches one counts itself, advances the program
counter by 4, records the instruction with its operand, and changes nothing else. -/
def Obligations.NopCycle : Prop :=
  (∀ operand : Half, encode (.nop operand) = 0x0000#16 ++ operand) ∧
  ∀ (s : State) (operand : Half), s.runState = .running → Memory.read s.imem s.pc.toNat = some ⟨0#16, operand⟩ →
    ∃ t, step s = .next t ∧
      t = { s with
        cycleCount := s.cycleCount + 1
        pc := s.pc + 4
        recentInstr := pushBuffer 20 s.recentInstr ⟨s.pc, 0, operand⟩ } ∧
      runCycleOp s = (.cycle (.done ⟨s.pc, 0, operand⟩), t)

/-! ## jmpl -/

/-- R125, R126, R129, R130 (the recorded source is the spec's own decision D14, the unchecked target D23; log entry
8): the label jump completes whenever its label is defined, whatever stands at the target. -/
def Obligations.JmplCompletes : Prop :=
  ∀ (s : State) (label : Half) (k : Word), Memory.read s.labels label.toNat = some k →
    exec (.jmpl label) s = .next { s with
      pc := Config.codeBase + k
      recentJumps := pushBuffer 24 s.recentJumps ⟨s.pc, Config.codeBase + k⟩ }

/-- R125, R126, R129 (the recorded source is the spec's own decision D14; log entry 8): a cycle that fetches a label
jump from address `pc` to a label with offset `k`. The recorded source is the advanced program counter, which the
target overwrites. -/
def Obligations.JmplCycle : Prop :=
  ∀ (s : State) (label : Half) (k : Word), s.runState = .running →
    Memory.read s.imem s.pc.toNat = some ⟨1#16, label⟩ → Memory.read s.labels label.toNat = some k →
    ∃ t, step s = .next t ∧
      t = { s with
        cycleCount := s.cycleCount + 1
        pc := Config.codeBase + k
        recentInstr := pushBuffer 20 s.recentInstr ⟨s.pc, 1, label⟩
        recentJumps := pushBuffer 24 s.recentJumps ⟨s.pc + 4, Config.codeBase + k⟩ } ∧
      runCycleOp s = (.cycle (.done ⟨s.pc, 1, label⟩), t)

/-- R127, R183 (its sentinel is the spec's own decision D16, with the advanced program counter D13, the information value
D17; log entry 8): a label jump to an undefined label enters `Errored` before the push of a pair and before the write of
`pc`. -/
def Obligations.JmplUndefinedLabelEntersErrored : Prop :=
  ∀ (s : State) (label : Half), s.runState = .running →
    Memory.read s.imem s.pc.toNat = some ⟨1#16, label⟩ → Memory.read s.labels label.toNat = none →
    ∃ t text, step s = .next t ∧
      t = { s with
        cycleCount := s.cycleCount + 1
        pc := s.pc + 4
        runState := .errored
        recentInstr := pushBuffer 20 (pushBuffer 20 s.recentInstr ⟨s.pc, 1, label⟩) ⟨s.pc + 4, -1, 0⟩
        lastError := some ⟨.unknownLabel, label.setWidth 32, text⟩ } ∧
      runCycleOp s = (.cycle (.faulted (some ⟨s.pc, 1, label⟩)), t)

/-! ## Frames -/

/-- The frame of both handlers (R108, R120, R125, R127, R128): no register, no stack element, no store and no counter
changes; a `jmpl` with a defined label changes only `pc` and `recentJumps`, one with an undefined label only `runState`,
`lastError` and `recentInstr`, a `nop` nothing. Nothing is stored: every address and every label reads as before. -/
def Obligations.HandlerFrame : Prop :=
  ∀ (i : Instr) (s t : State), exec i s = .next t →
    t.regs = s.regs ∧ t.stack = s.stack ∧ t.stackCap = s.stackCap ∧ t.cycleCount = s.cycleCount ∧
    t.imem = s.imem ∧ t.labels = s.labels ∧ t.loaded = s.loaded ∧ t.loadFailed = s.loadFailed ∧
    (∀ a, t.readInstruction a = s.readInstruction a) ∧ (∀ id, t.resolveLabel id = s.resolveLabel id) ∧
    (∀ operand, i = .nop operand → t = s) ∧
    (∀ label k, i = .jmpl label → Memory.read s.labels label.toNat = some k →
      t.runState = s.runState ∧ t.lastError = s.lastError ∧ t.recentInstr = s.recentInstr) ∧
    ∀ label, i = .jmpl label → Memory.read s.labels label.toNat = none →
      t.pc = s.pc ∧ t.recentJumps = s.recentJumps

/-- The frame of a step (R22, R33, R58, R59, R69): whatever it runs, the registers, the stack and both stores stay, and
every address and every label reads as before. -/
def Obligations.StepFrame : Prop :=
  ∀ s t : State, step s = .next t →
    t.regs = s.regs ∧ t.stack = s.stack ∧ t.stackCap = s.stackCap ∧ t.imem = s.imem ∧ t.labels = s.labels ∧
    t.loaded = s.loaded ∧ t.loadFailed = s.loadFailed ∧
    (∀ a, t.readInstruction a = s.readInstruction a) ∧ ∀ id, t.resolveLabel id = s.resolveLabel id

/-! ## The whole cycle -/

/-- R113: a cycle counts one, pushes at most two records, the sentinel last if it ends in `Errored`, and at most one
pair; a cycle that returns `Done` pushes exactly the instruction it returns. -/
def Obligations.CyclePushesAtMostTwoRecords : Prop :=
  ∀ s t : State, step s = .next t →
    t.cycleCount = s.cycleCount + 1 ∧
    (∃ records : List InstrRecord, records.length ≤ 2 ∧ t.recentInstr = records.foldl (pushBuffer 20) s.recentInstr ∧
      (t.runState = .errored → records.getLast? = some ⟨t.pc, -1, 0⟩) ∧
      ∀ r, (runCycleOp s).1 = .cycle (.done r) → records = [r]) ∧
    ∃ pairs : List JumpPair, pairs.length ≤ 1 ∧ t.recentJumps = pairs.foldl (pushBuffer 24) s.recentJumps

/-- R111 (a failed fetch's result is the spec's own decision D15; log entry 8): the three outcomes of an accepted
`RunCycle`, with the state after each. -/
def Obligations.RunCycleHasThreeOutcomes : Prop :=
  ∀ s : State, s.runState = .running →
    ∃ t, step s = .next t ∧
      ((∃ r, s.readInstruction s.pc = .ok r ∧ t.runState = .running ∧ runCycleOp s = (.cycle (.done r), t)) ∨
      (∃ r, s.readInstruction s.pc = .ok r ∧ t.runState = .errored ∧ runCycleOp s = (.cycle (.faulted (some r)), t)) ∨
      ((∃ f, s.readInstruction s.pc = .error f) ∧ t.runState = .errored ∧ runCycleOp s = (.cycle (.faulted none), t)))

/-- R186, R225: after a dispatch fault the program counter is the faulting instruction's address plus 4, that
instruction is the record before the sentinel, and the jump has not happened; after a fetch fault it is the faulting
address itself. -/
def Obligations.FaultsArePrecise : Prop :=
  ∀ s t : State, step s = .next t → t.runState = .errored →
    t.recentJumps = s.recentJumps ∧
    (∀ r, s.readInstruction s.pc = .ok r →
      t.pc - 4 = s.pc ∧ ∃ older, t.recentInstr = older ++ [r, ⟨t.pc, -1, 0⟩] ∧ r.address = t.pc - 4) ∧
    ∀ f, s.readInstruction s.pc = .error f →
      t.pc = s.pc ∧ ∃ older text, t.recentInstr = older ++ [⟨s.pc, -1, 0⟩] ∧
        t.lastError = some ⟨.invalidAddress, s.pc, text⟩

/-- R27, R132: a cycle leaves `pc` where it was (a fetch fault), 4 further, or at the re-based offset of a label. -/
def Obligations.PcChangesInThreeWays : Prop :=
  ∀ s t : State, step s = .next t →
    (t.pc = s.pc ∧ t.runState = .errored) ∨ t.pc = s.pc + 4 ∨
    ∃ (id : Half) (k : Word), Memory.read s.labels id.toNat = some k ∧ t.pc = Config.codeBase + k

/-- R39: the diagnostics buffers are never consulted: two states that differ only in them run alike for any number of
cycles, still differ only in them, and stop alike. -/
def Obligations.DiagnosticsNeverConsulted : Prop :=
  ∀ (n : Nat) (s : State) (instrs : List InstrRecord) (jumps : List JumpPair),
    (∀ t, Host.Core.run Sys2Proof.core n s = .next t → ∃ instrs' jumps',
      Host.Core.run Sys2Proof.core n { s with recentInstr := instrs, recentJumps := jumps } =
        .next { t with recentInstr := instrs', recentJumps := jumps' }) ∧
    ∀ f, Host.Core.run Sys2Proof.core n s = .fault f →
      Host.Core.run Sys2Proof.core n { s with recentInstr := instrs, recentJumps := jumps } = .fault f

/-- R23, R145: no instruction reads or writes a general register or the stack: two states that differ only in them run
alike for any number of cycles, and keep their difference. -/
def Obligations.RegistersAndStackNeverConsulted : Prop :=
  ∀ (n : Nat) (s : State) (regs : Vector Half 8) (stack : List Word) (cap : Nat),
    (∀ t, Host.Core.run Sys2Proof.core n s = .next t →
      t.regs = s.regs ∧ t.stack = s.stack ∧ t.stackCap = s.stackCap ∧
      Host.Core.run Sys2Proof.core n { s with regs := regs, stack := stack, stackCap := cap } =
        .next { t with regs := regs, stack := stack, stackCap := cap }) ∧
    ∀ f, Host.Core.run Sys2Proof.core n s = .fault f →
      Host.Core.run Sys2Proof.core n { s with regs := regs, stack := stack, stackCap := cap } = .fault f

/-- R102: every accepted cycle is counted before anything can fail, so also one that ends in `Errored`. -/
def Obligations.EveryAcceptedCycleIsCounted : Prop :=
  ∀ s : State, s.runState = .running → ∃ t, step s = .next t ∧ t.cycleCount = s.cycleCount + 1

/-- R31, R102 (an unbounded counter is the spec's own decision D18; log entry 7): `n` cycles count exactly `n`, faulting
cycles among them. -/
def Obligations.CycleCountIsExact : Prop :=
  ∀ (n : Nat) (s t : State), Host.Core.run Sys2Proof.core n s = .next t → t.cycleCount = s.cycleCount + n

/-- R38, for entries of any type, so on either buffer (`recentInstr` holds records, `recentJumps` pairs): a push to a full
buffer removes the oldest entry first, and then, full or not, appends the new one; so pushing any entries to a buffer
within its capacity leaves the last `capacity` of all of them, in order. -/
def Obligations.BufferHoldsTheLastEntries : Prop :=
  (∀ (α : Type) (capacity : Nat) (buf : List α) (e : α),
    (buf.length = capacity → pushBuffer capacity buf e = buf.tail ++ [e]) ∧
    (buf.length ≠ capacity → pushBuffer capacity buf e = buf ++ [e])) ∧
  ∀ (α : Type) (capacity : Nat) (buf entries : List α), 0 < capacity → buf.length ≤ capacity →
    entries.foldl (pushBuffer capacity) buf = (buf ++ entries).drop ((buf ++ entries).length - capacity)

/-! ## Faults -/

/-- R185 (the sentinel for every cause and its address are the spec's own decisions D16 and D13, the form of `lastError`
D17; log entry 8): what the
Errored entry writes, that it writes nothing else, and that every later cycle request is rejected. -/
def Obligations.ErroredEntryWritesThreeElements : Prop :=
  ∀ (f : DispatchFault) (s : State),
    (∃ text, s.enterErrored f = { s with
      runState := .errored
      recentInstr := pushBuffer 20 s.recentInstr ⟨s.pc, -1, 0⟩
      lastError := some ⟨f.cause, f.info, text⟩ }) ∧
    step (s.enterErrored f) = .fault .preconditionError

/-- R109, R138, R144, R183 (causes and information values are the spec's own decisions D17 and D20; log entry 8): the
failures of the services inside a handler, contained, with their causes and information values. Where 32 bits do not
hold the stack's length, the value of `StackOverflow` is the model's free value (log entry 18), and nothing is said of
it. -/
def Obligations.ServiceFailuresAreContained : Prop :=
  ∀ s : State,
    (∀ (idx : Int) (k : Half → State), ¬ (0 ≤ idx ∧ idx < 8) →
      contain (s.regGet idx) s k = s.enterErrored ⟨.invalidRegister, BitVec.ofInt 32 idx⟩) ∧
    (∀ (idx v : Int) (k : State → State), ¬ (0 ≤ idx ∧ idx < 8) →
      contain (s.regSet idx v) s k = s.enterErrored ⟨.invalidRegister, BitVec.ofInt 32 idx⟩) ∧
    (∀ (v : Int) (k : State → State), s.stackCap ≤ s.stack.length →
      ∃ info, contain (s.stackPush v) s k = s.enterErrored ⟨.stackOverflow, info⟩ ∧
        (s.stack.length < 2 ^ 32 → info.toNat = s.stack.length)) ∧
    (∀ k : Word × State → State, s.stack = [] →
      contain s.stackPop s k = s.enterErrored ⟨.stackUnderflow, 0⟩) ∧
    ∀ (α : Type) (a : α) (k : α → State), contain (.ok a) s k = k a

/-- R187: once `Errored`, every cycle request is rejected; a loaded CPU (which a started one is, by the invariant)
stays as it is under every sequence of host operations without a `Reset`; and `Reset` leaves `Errored`, with nothing
kept. -/
def Obligations.ErroredIsTerminal : Prop :=
  ∀ (lim : Limits) (ops : List HostOp) (s : State), s.runState = .errored →
    hostOp lim .runCycle s = (.preconditionError, s) ∧ (hostOp lim .reset s).2 = State.reset ∧
    State.reset.runState = .halted ∧
    (s.loaded = true → HostOp.reset ∉ ops → (hostOps lim ops s).2 = s)

/-! ## Register file and stack -/

/-- R136, R183: a register read, by any integer index. That a failing read answers the information value of R183 (the
spec's own decision D17) beside the cause is the model's reading (log entry 12). -/
def Obligations.RegisterReadByIndex : Prop :=
  ∀ (s : State) (idx : Int),
    (∀ i : Fin 8, idx = i.val → s.regGet idx = .ok s.regs[i.val]) ∧
    (idx < 0 ∨ 8 ≤ idx → s.regGet idx = .error ⟨.invalidRegister, BitVec.ofInt 32 idx⟩)

/-- R137, R183 (the masking of a negative value is the spec's own decision D28; log entry 8): a register write masks the
value to 16 bits, reads back, and changes no other register and no other state; a bad index writes nothing. That it
answers the information value of R183 (decision D17) beside the cause is the model's reading (log entry 12). -/
def Obligations.RegisterWriteIsMasked : Prop :=
  ∀ (s : State) (idx v : Int),
    (0 ≤ idx ∧ idx < 8 → ∃ t w, s.regSet idx v = .ok t ∧ t.regGet idx = .ok w ∧ (w.toNat : Int) = v % 2 ^ 16 ∧
      (∀ j, j ≠ idx → t.regGet j = s.regGet j) ∧ { t with regs := s.regs } = s) ∧
    (¬ (0 ≤ idx ∧ idx < 8) → s.regSet idx v = .error ⟨.invalidRegister, BitVec.ofInt 32 idx⟩)

/-- R142, R183 (the spec's own decisions D20 and D17; log entry 8): a push to a stack with room appends the masked value
as the new top; a full stack does not change. That a failing push answers the information value of R183, the length,
beside the cause is the model's reading (log entry 12); where 32 bits do not hold the length, the value is the model's
free value (log entry 18), and nothing is said of it. -/
def Obligations.StackPushAppendsOrOverflows : Prop :=
  ∀ (s : State) (v : Int),
    (s.stack.length < s.stackCap → ∃ t w, s.stackPush v = .ok t ∧ t = { s with stack := s.stack ++ [w] } ∧
      (w.toNat : Int) = v % 2 ^ 32 ∧ t.stack.length ≤ t.stackCap) ∧
    (s.stackCap ≤ s.stack.length → ∃ info, s.stackPush v = .error ⟨.stackOverflow, info⟩ ∧
      (s.stack.length < 2 ^ 32 → info.toNat = s.stack.length))

/-- R143, R145 (the spec's own decision D20; log entry 8): pops take values in the reverse order of the pushes and
lead back to the state before them; a pop from an empty stack fails, with the information value of R183 (decision D17)
beside the cause by the model's reading (log entry 12). -/
def Obligations.StackIsLastInFirstOut : Prop :=
  (∀ (vs : List Int) (s : State), s.stack.length + vs.length ≤ s.stackCap →
    ∃ t, s.serveStack (vs.map .push) = (.ok [], t) ∧ t.stack.length = s.stack.length + vs.length ∧
      t.serveStack (List.replicate vs.length .pop) = (.ok (vs.map trunc32).reverse, s)) ∧
  (∀ (s : State) (rest : List Word) (top : Word), s.stack = rest ++ [top] →
    s.stackPop = .ok (top, { s with stack := rest })) ∧
  ∀ s : State, s.stack = [] → s.stackPop = .error ⟨.stackUnderflow, 0⟩

/-- R109, R144, R145 (the stack's contract is the spec's own decision D20; log entry 8): a handler's requests, pushes and
pops in any mixture, are served one after another in the order it issues them. The first failure ends them in the Errored
entry, from the state the failed request met: what was served before it stays, what comes after it is not served. They
change the stack alone, within its capacity. So pushes past the capacity leave a full stack, pops past the bottom an empty
one. (The value of `StackOverflow` where 32 bits do not hold the length is the model's free value, log entry 18.) -/
def Obligations.HandlerStackRequestsAreServedInOrder : Prop :=
  (∀ (first rest : List StackRequest) (r : StackRequest) (s t : State) (popped : List Word)
      (k : List Word → State → State), s.serveStack first = (.ok popped, t) →
    (∀ more u, t.stackRequest r = .ok (more, u) →
      s.serveStack (first ++ [r]) = (.ok (popped ++ more), u) ∧ s.withStack (first ++ [r]) k = k (popped ++ more) u) ∧
    ∀ f, t.stackRequest r = .error f →
      s.serveStack (first ++ r :: rest) = (.error f, t) ∧ s.withStack (first ++ r :: rest) k = t.enterErrored f) ∧
  (∀ (rs : List StackRequest) (s : State), ∃ stack, (s.serveStack rs).2 = { s with stack := stack } ∧
    (s.stack.length ≤ s.stackCap → stack.length ≤ s.stackCap)) ∧
  (∀ (vs rest : List Int) (v : Int) (s : State) (k : List Word → State → State),
    s.stack.length + vs.length = s.stackCap →
    ∃ info, s.withStack ((vs ++ v :: rest).map .push) k =
        { s with stack := s.stack ++ vs.map trunc32 }.enterErrored ⟨.stackOverflow, info⟩ ∧
      (s.stackCap < 2 ^ 32 → info.toNat = s.stackCap)) ∧
  ∀ (n : Nat) (s : State) (k : List Word → State → State), s.stack.length < n →
    s.withStack (List.replicate n .pop) k = { s with stack := [] }.enterErrored ⟨.stackUnderflow, 0⟩

/-! ## Host operations -/

/-- R156 (the spec's own decisions D19 and D30; log entry 8): `Reset` gives every element its reset value, from every
state. -/
def Obligations.ResetGivesEveryElementItsValue : Prop :=
  ∀ (lim : Limits) (s : State), ∃ t, hostOp lim .reset s = (.nothing, t) ∧ t = State.reset ∧
    (∀ i : Fin 8, t.regs[i.val] = 0#16) ∧ t.pc = 0#32 ∧ t.runState = .halted ∧ t.cycleCount = 0 ∧
    t.lastError = none ∧ t.stack = [] ∧ t.stackCap = 0 ∧ t.recentInstr = [] ∧ t.recentJumps = [] ∧ t.imem = [] ∧ t.labels = [] ∧
    t.loaded = false ∧ t.loadFailed = false

/-- R158 (checks 4 and 5 and the closed list are the spec's own decisions D22, D25, D32; log entry 8): the checks of
`Load`, in their order, and what each failure leaves; a malformed input makes every later `Load` and every `Start`
fail. -/
def Obligations.LoadChecksInOrder : Prop :=
  ∀ (lim : Limits) (args : LoadArgs) (s : State),
    (s.loaded = true ∨ s.loadFailed = true → hostOp lim (.load args) s = (.loadError .secondLoad, s)) ∧
    (s.loaded = false → s.loadFailed = false →
      (args.instrs = [] → hostOp lim (.load args) s = (.loadError .emptyStore, { s with loadFailed := true })) ∧
      (args.instrs ≠ [] →
        (¬ (args.labelList.map Prod.fst).Nodup →
          hostOp lim (.load args) s = (.loadError .duplicateLabel, { s with loadFailed := true })) ∧
        ((args.labelList.map Prod.fst).Nodup →
          (¬ (args.instrs.map Prod.fst).Nodup →
            hostOp lim (.load args) s = (.loadError .duplicateAddress, { s with loadFailed := true })) ∧
          ((args.instrs.map Prod.fst).Nodup →
            (lim.imemMax < args.instrs.length ∨ lim.labelMax < args.labelList.length ∨ lim.stackMax < args.cap →
              hostOp lim (.load args) s = (.loadError .capacity, { s with loadFailed := true })) ∧
            (args.instrs.length ≤ lim.imemMax → args.labelList.length ≤ lim.labelMax → args.cap ≤ lim.stackMax →
              (hostOp lim (.load args) s).1 = .ok))))) ∧
    (s.loadFailed = true → hostOp lim .start s = (.preconditionError, s))

/-- R159: a `Load` that succeeds installs exactly the given entries and labels, the capacity, an empty stack and the
re-based start offset, marks the CPU loaded, and changes nothing else. -/
def Obligations.LoadInstallsExactlyTheProgram : Prop :=
  ∀ (lim : Limits) (args : LoadArgs) (s t : State), hostOp lim (.load args) s = (.ok, t) →
    (∀ a e, t.readInstruction a = .ok ⟨a, (e.opcode.toNat : Int), e.operand⟩ ↔ (a, e) ∈ args.instrs) ∧
    (∀ id k, t.resolveLabel id = .ok k ↔ (id, k) ∈ args.labelList) ∧
    t.stackCap = args.cap ∧ t.stack = [] ∧ t.pc = Config.codeBase + args.startOffset ∧ t.loaded = true ∧
    t.runState = s.runState ∧ t.cycleCount = s.cycleCount ∧ t.regs = s.regs ∧ t.recentInstr = s.recentInstr ∧
    t.recentJumps = s.recentJumps ∧ t.lastError = s.lastError ∧ t.loadFailed = s.loadFailed

/-- R28, R216 (the register and buffer values are the spec's own decisions D19, D20, D30; log entry 8): a freshly
constructed CPU. -/
def Obligations.FreshCpu : Prop :=
  ∀ (lim : Limits) (args : LoadArgs) (s : State), args.check lim = none →
    ∃ t, hostOps lim [.reset, .load args] s = ([.nothing, .ok], t) ∧
      t.runState = .halted ∧ t.cycleCount = 0 ∧ t.pc = Config.codeBase + args.startOffset ∧
      t.regs = Vector.replicate 8 0#16 ∧ t.stack = [] ∧ t.stackCap = args.cap ∧ t.recentInstr = [] ∧
      t.recentJumps = [] ∧ t.lastError = none

/-- R160 (the spec's own decisions D1 and D2; log entry 8): `Start` is accepted exactly in a loaded `Halted` CPU, and
then changes the run state alone. -/
def Obligations.StartNeedsALoadedHaltedCpu : Prop :=
  ∀ (lim : Limits) (s : State),
    (s.runState = .halted ∧ s.loaded = true ∧ s.loadFailed = false →
      hostOp lim .start s = (.ok, { s with runState := .running })) ∧
    (¬ (s.runState = .halted ∧ s.loaded = true ∧ s.loadFailed = false) →
      hostOp lim .start s = (.preconditionError, s))

/-- R190, R191, and for `Start` R160 (when it is rejected, and with what, is the spec's own decision D2; log entry 8): a
rejected operation changes nothing, and repeats with the same result. -/
def Obligations.RejectedOperationsChangeNothing : Prop :=
  ∀ (lim : Limits) (s : State) (n : Nat),
    (s.runState = .halted ∨ s.runState = .errored →
      hostOps lim (List.replicate n .runCycle) s = (List.replicate n .preconditionError, s)) ∧
    (s.runState ≠ .halted ∨ s.loaded = false ∨ s.loadFailed = true →
      hostOps lim (List.replicate n .start) s = (List.replicate n .preconditionError, s))

/-- R59: the instruction store and the label table are written only by `Load`, and only once: no step and no other
operation but `Reset` changes them, and a `Load` into a loaded CPU does not. -/
def Obligations.StoresAreWrittenOnlyByLoad : Prop :=
  (∀ s t : State, step s = .next t → t.imem = s.imem ∧ t.labels = s.labels) ∧
  ∀ (lim : Limits) (o : HostOp) (s : State),
    (hostOp lim o s).2.imem ≠ s.imem ∨ (hostOp lim o s).2.labels ≠ s.labels →
    o = .reset ∨ ∃ args, o = .load args ∧ s.loaded = false ∧ s.loadFailed = false ∧ (hostOp lim o s).1 = .ok

/-- R217, R160, R161 (that `Start` is needed, and that it is rejected without a `Load`, are the spec's own decisions D1
and D2; log entry 8): the boot order. Without a `Load`, `Start` and every cycle request fail; after a `Load` but without `Start`,
every cycle request fails; with both, cycles run. -/
def Obligations.BootOrderIsNeeded : Prop :=
  ∀ (lim : Limits) (args : LoadArgs) (s : State) (n : Nat), args.check lim = none →
    (hostOps lim (.reset :: .start :: List.replicate n .runCycle) s).1 =
      .nothing :: .preconditionError :: List.replicate n .preconditionError ∧
    (hostOps lim (.reset :: .load args :: List.replicate n .runCycle) s).1 =
      .nothing :: .ok :: List.replicate n .preconditionError ∧
    ∃ result, (hostOps lim [.reset, .load args, .start, .runCycle] s).1 = [.nothing, .ok, .ok, .cycle result]

/-- R162, R194 (oldest first is the spec's own decision D29; log entry 8): the observable surface: every read answers
its element and changes nothing, in every state. -/
def Obligations.ReadsObserveAndChangeNothing : Prop :=
  ∀ (lim : Limits) (s : State),
    hostOp lim .readState s = (.runState s.runState, s) ∧
    hostOp lim .readCycleCount s = (.cycleCount s.cycleCount, s) ∧
    hostOp lim .readLastError s = (.lastError s.lastError, s) ∧
    hostOp lim .readPC s = (.pc s.pc, s) ∧
    (∀ i : Fin 8, hostOp lim (.readReg i.val) s = (.reg s.regs[i.val], s)) ∧
    (∀ idx : Int, idx < 0 ∨ 8 ≤ idx → hostOp lim (.readReg idx) s = (.invalidRegister, s)) ∧
    hostOp lim .readRecentInstr s = (.recentInstr s.recentInstr, s) ∧
    hostOp lim .readRecentJumps s = (.recentJumps s.recentJumps, s)

/-- R192 (no way back to `Halted` and `Start` are the spec's own decisions D3 and D1; log entry 8): the run state
after every operation, row by row. The premise is the invariant, which rules out a started CPU without a program. -/
def Obligations.RunStateTransitionTable : Prop :=
  ∀ (lim : Limits) (s : State) (args : LoadArgs), s.Inv lim →
    (hostOp lim .reset s).2 = State.reset ∧ State.reset.runState = .halted ∧
    (hostOp lim (.load args) s).2.runState = s.runState ∧
    (s.runState = .halted → s.loaded = false → s.loadFailed = false → ∃ t,
      (hostOp lim (.load args) s = (.ok, t) ∧ t.loaded = true) ∨
      (∃ reason, hostOp lim (.load args) s = (.loadError reason, t) ∧ t.loadFailed = true)) ∧
    (s.loaded = true ∨ s.loadFailed = true ∨ s.runState ≠ .halted →
      hostOp lim (.load args) s = (.loadError .secondLoad, s)) ∧
    (s.runState = .halted → s.loaded = true → hostOp lim .start s = (.ok, { s with runState := .running })) ∧
    (s.runState ≠ .halted ∨ s.loaded = false → hostOp lim .start s = (.preconditionError, s)) ∧
    (s.runState = .running → ∃ t result, hostOp lim .runCycle s = (.cycle result, t) ∧
      ((∃ r, result = .done r) ∧ t.runState = .running ∨ (∃ r, result = .faulted r) ∧ t.runState = .errored)) ∧
    (s.runState ≠ .running → hostOp lim .runCycle s = (.preconditionError, s))

/-! ## Invariants -/

/-- The invariant holds after `Reset`. -/
def Obligations.ResetHasTheInvariant : Prop :=
  ∀ lim : Limits, State.reset.Inv lim

/-- Every step keeps the invariant, from every state that has it. -/
def Obligations.StepKeepsTheInvariant : Prop :=
  ∀ (lim : Limits) (s t : State), s.Inv lim → step s = .next t → t.Inv lim

/-- Every host operation keeps the invariant, so every reachable state has it. -/
def Obligations.ReachableStatesHaveTheInvariant : Prop :=
  (∀ (lim : Limits) (o : HostOp) (s : State), s.Inv lim → (hostOp lim o s).2.Inv lim) ∧
  ∀ (lim : Limits) (s : State), Reachable lim s → s.Inv lim

/-- R23, R24, R33, R145 (the reset values are the spec's own decisions D19 and D20; log entry 8): in every reachable
state the general registers hold their reset value and the stack is empty. -/
def Obligations.ReachableRegistersAndStackAreFresh : Prop :=
  ∀ (lim : Limits) (s : State), Reachable lim s → s.regs = Vector.replicate 8 0#16 ∧ s.stack = []

/-! ## Programs that never fault -/

/-- R218, R189 (obligation 6 of R218 read off the code is the model's choice; log entry 17): on closed code a step answers
a next state that is again on track: `Running`, on a loaded instruction. -/
def Obligations.ClosedCodeStaysOnTrack : Prop :=
  ∀ s : State, s.OnTrack → ∃ t, step s = .next t ∧ t.OnTrack ∧ t.lastError = s.lastError

/-- R217, R218, R222 (`Start` is the spec's own decision D1, log entry 8; obligation 6 of R218 read off the code is the
model's choice, log entry 17): a program that meets the loader obligations 3 to 7 boots, and runs for any number of
cycles without a fault. -/
def Obligations.ObedientProgramsNeverFault : Prop :=
  ∀ (lim : Limits) (args : LoadArgs), args.check lim = none → args.Closed →
    hostOps lim [.reset, .load args, .start] State.reset = ([.nothing, .ok, .ok], booted lim args) ∧
    ∀ n, ∃ t, Host.Core.run Sys2Proof.core n (booted lim args) = .next t ∧ t.runState = .running ∧
      t.cycleCount = n ∧ t.lastError = none
end

