-- ==== Sys2Proof/Laws/Buffer.lean ====
section
/-! SUPPORT. What a push to a diagnostics buffer does (R38). -/

namespace Sys2Proof.Machine

variable {α : Type} {capacity : Nat} {buf : List α} {e : α}

theorem pushBuffer_below (h : buf.length < capacity) : pushBuffer capacity buf e = buf ++ [e] := by
  simp [pushBuffer, Nat.ne_of_lt h]

theorem pushBuffer_full (h : buf.length = capacity) : pushBuffer capacity buf e = buf.tail ++ [e] := by
  simp [pushBuffer, h]

/-- A push to a buffer within its capacity leaves it so, one entry longer unless it was full. -/
theorem length_pushBuffer (hc : 0 < capacity) (h : buf.length ≤ capacity) :
    (pushBuffer capacity buf e).length = min capacity (buf.length + 1) := by
  rcases Nat.lt_or_eq_of_le h with h | h
  · rw [pushBuffer_below h]; simp; omega
  · rw [pushBuffer_full h]; simp; omega

/-- The length after a push is at most one more, whatever the buffer. -/
theorem length_pushBuffer_le_succ : (pushBuffer capacity buf e).length ≤ buf.length + 1 := by
  unfold pushBuffer
  split <;> simp

@[simp] theorem getLast?_pushBuffer : (pushBuffer capacity buf e).getLast? = some e := by
  simp [pushBuffer]

theorem mem_pushBuffer {x : α} (h : x ∈ pushBuffer capacity buf e) : x ∈ buf ∨ x = e := by
  unfold pushBuffer at h
  split at h
  · rcases List.mem_append.mp h with h | h
    · exact .inl (List.mem_of_mem_tail h)
    · exact .inr (by simpa using h)
  · simpa using h

end Sys2Proof.Machine
end

