-- ==== Sys2Proof/Laws/Config.lean ====
section
/-! SUPPORT. The one relation the spec gives between its open constants (R9). -/

namespace Sys2Proof

/-- `LABEL_BASE <= CODE_BASE` (R9). -/
theorem labelBase_le_codeBase : Config.labelBase ≤ Config.codeBase := by
  unfold Config.labelBase
  split
  · assumption
  · exact BitVec.le_refl _

/-- Every pair of bases that the relation allows is one that `labelBase` takes. -/
theorem labelBase_of_le (h : Config.labelBaseCandidate ≤ Config.codeBase) :
    Config.labelBase = Config.labelBaseCandidate := by
  simp [Config.labelBase, h]

end Sys2Proof
end

