-- ==== Sys2Proof/Laws/Decode.lean ====
section
/-! SUPPORT. The laws of fields, words and bytes (R81 to R83) and of the closed mapping (R90). -/

namespace Sys2Proof

/-- The bits of a word made of two fields. -/
theorem getLsbD_wordOfFields (e : Entry) (i : Nat) :
    (wordOfFields e).getLsbD i = if i < 16 then e.operand.getLsbD i else e.opcode.getLsbD (i - 16) :=
  (BitVec.getLsbD_append (x := e.opcode) (y := e.operand) (i := i)).trans (by by_cases h : i < 16 <;> simp [h])

theorem fieldsOfWord_wordOfFields (e : Entry) : fieldsOfWord (wordOfFields e) = e := by
  obtain ⟨o, d⟩ := e
  simp only [fieldsOfWord, Entry.mk.injEq]
  constructor <;> apply BitVec.eq_of_getLsbD_eq <;> intro i hi <;>
    simp [getLsbD_wordOfFields, hi]

theorem wordOfFields_fieldsOfWord (w : Word) : wordOfFields (fieldsOfWord w) = w := by
  apply BitVec.eq_of_getLsbD_eq
  intro i hi
  rw [getLsbD_wordOfFields]
  by_cases h : i < 16
  · simp [fieldsOfWord, h]
  · have h2 : i - 16 < 16 := by omega
    have h3 : 16 + (i - 16) = i := by omega
    simp [fieldsOfWord, h, h2, h3]

/-- The bits of a word made of four bytes. -/
theorem getLsbD_wordOfBytes (b0 b1 b2 b3 : Byte) (i : Nat) : (wordOfBytes b0 b1 b2 b3).getLsbD i =
    if i < 8 then b3.getLsbD i else if i < 16 then b2.getLsbD (i - 8)
    else if i < 24 then b1.getLsbD (i - 16) else b0.getLsbD (i - 24) := by
  have h1 := BitVec.getLsbD_append (x := b0 ++ b1) (y := b2 ++ b3) (i := i)
  have h2 := BitVec.getLsbD_append (x := b0) (y := b1) (i := i - 16)
  have h3 := BitVec.getLsbD_append (x := b2) (y := b3) (i := i)
  refine h1.trans ?_
  rw [h2, h3]
  by_cases a : i < 8
  · simp [a, show i < 16 by omega]
  · by_cases b : i < 16
    · simp [a, b]
    · by_cases c : i < 24
      · simp [a, b, c, show i - 16 < 8 by omega]
      · simp [a, b, c, show ¬ i - 16 < 8 by omega, Nat.sub_sub]

theorem wordOfBytes_bytesOfWord (w : Word) :
    wordOfBytes (w.extractLsb' 24 8) (w.extractLsb' 16 8) (w.extractLsb' 8 8) (w.extractLsb' 0 8) = w := by
  apply BitVec.eq_of_getLsbD_eq
  intro i hi
  rw [getLsbD_wordOfBytes]
  split
  · simp [*]
  · split
    · simp [show i - 8 < 8 by omega, show 8 + (i - 8) = i by omega]
    · split
      · simp [show i - 16 < 8 by omega, show 16 + (i - 16) = i by omega]
      · simp [show i - 24 < 8 by omega, show 24 + (i - 24) = i by omega]

/-- Decoding the image of a word, with anything after it, decodes the word. -/
theorem decodeBytes_bytesOfWord (w : Word) (rest : List Byte) :
    decodeBytes (bytesOfWord w ++ rest) = (decodeWord w).map fun i => (i, rest) := by
  simp only [bytesOfWord, List.cons_append, List.nil_append, decodeBytes, wordOfBytes_bytesOfWord]
  cases decodeWord w <;> rfl

/-! ## The closed mapping -/

@[simp] theorem classify_zero : classify 0#16 = .nop := rfl

@[simp] theorem classify_one : classify 1#16 = .labelJump := rfl

theorem classify_other {v : Half} (h0 : v ≠ 0#16) (h1 : v ≠ 1#16) : classify v = .unknown v := by
  simp [classify, h0, h1]

/-- What an entry decodes to, by its opcode. -/
theorem decodeEntry_cases (e : Entry) :
    (e.opcode = 0#16 ∧ decodeEntry e = .ok (.nop e.operand)) ∨
    (e.opcode = 1#16 ∧ decodeEntry e = .ok (.jmpl e.operand)) ∨
    (e.opcode ≠ 0#16 ∧ e.opcode ≠ 1#16 ∧ decodeEntry e = .error (.unknownOpcode e.opcode)) := by
  by_cases h0 : e.opcode = 0#16
  · exact .inl ⟨h0, by simp [decodeEntry, h0]⟩
  · by_cases h1 : e.opcode = 1#16
    · exact .inr (.inl ⟨h1, by simp [decodeEntry, h1]⟩)
    · exact .inr (.inr ⟨h0, h1, by simp [decodeEntry, classify_other h0 h1]⟩)

theorem decodeEntry_encodeEntry (i : Instr) : decodeEntry (encodeEntry i) = .ok i := by
  cases i <;> rfl

end Sys2Proof
end

