-- ==== Sys2Proof/Laws/Memory.lean ====
section
/-! SUPPORT. The laws of the partial maps: a read after a write, the canonical form kept by every operation, and equal
maps being equal data. -/

namespace Sys2Proof.Machine

variable {α : Type}

@[simp] theorem read_nil (a : Nat) : Memory.read ([] : Memory α) a = none := rfl

/-! ## Read after write -/

@[simp] theorem read_write_same (a : Nat) (v : α) (m : Memory α) : Memory.read (Memory.write a v m) a = some v := by
  induction m with
  | nil => simp [Memory.write, Memory.read]
  | cons p rest ih =>
    obtain ⟨k, u⟩ := p
    simp only [Memory.write]
    split
    · simp [Memory.read]
    · split
      · simp [Memory.read, *]
      · simp [Memory.read, *]

theorem read_write_other {a b : Nat} (h : b ≠ a) (v : α) (m : Memory α) :
    Memory.read (Memory.write a v m) b = Memory.read m b := by
  induction m with
  | nil => simp [Memory.write, Memory.read, h]
  | cons p rest ih =>
    obtain ⟨k, u⟩ := p
    simp only [Memory.write]
    split
    · simp [Memory.read, h]
    · split
      · next hk => subst hk; simp [Memory.read, h]
      · simp [Memory.read, ih]

/-! ## Canonical form -/

theorem risingFrom_write {low a : Nat} (v : α) {m : Memory α} (hm : Memory.risingFrom low m = true) (ha : low < a) :
    Memory.risingFrom low (Memory.write a v m) = true := by
  induction m generalizing low with
  | nil => simp [Memory.write, Memory.risingFrom, ha]
  | cons p rest ih =>
    obtain ⟨k, u⟩ := p
    simp only [Memory.risingFrom, Bool.and_eq_true, decide_eq_true_eq] at hm
    simp only [Memory.write]
    split
    · simp [Memory.risingFrom, *]
    · split
      · simp [Memory.risingFrom, *]
      · simp only [Memory.risingFrom, Bool.and_eq_true, decide_eq_true_eq]
        exact ⟨hm.1, ih hm.2 (by omega)⟩

theorem risingFrom_of_le {low low' : Nat} {m : Memory α} (h : low' ≤ low) (hm : Memory.risingFrom low m = true) :
    Memory.risingFrom low' m = true := by
  cases m with
  | nil => rfl
  | cons p rest =>
    simp only [Memory.risingFrom, Bool.and_eq_true, decide_eq_true_eq] at hm ⊢
    exact ⟨by omega, hm.2⟩

theorem mem_write {a : Nat} {v : α} {m : Memory α} {p : Nat × α} (h : p ∈ Memory.write a v m) : p = (a, v) ∨ p ∈ m := by
  induction m with
  | nil => simpa [Memory.write] using h
  | cons q rest ih =>
    obtain ⟨k, u⟩ := q
    simp only [Memory.write] at h
    split at h
    · simpa using h
    · split at h
      · next hk => subst hk; simp only [List.mem_cons] at h ⊢; tauto
      · rcases List.mem_cons.mp h with rfl | h
        · simp
        · rcases ih h with h | h <;> simp [h]

theorem write_ne_nil (a : Nat) (v : α) (m : Memory α) : Memory.write a v m ≠ [] := by
  cases m with
  | nil => simp [Memory.write]
  | cons p rest => simp only [Memory.write]; split <;> [simp; split <;> simp]

theorem rising_write (a : Nat) (v : α) {m : Memory α} (hm : Memory.rising m = true) :
    Memory.rising (Memory.write a v m) = true := by
  cases m with
  | nil => rfl
  | cons q rest =>
    obtain ⟨k, u⟩ := q
    simp only [Memory.rising] at hm
    simp only [Memory.write]
    split
    · simp [Memory.rising, Memory.risingFrom, *]
    · split
      · exact hm
      · exact risingFrom_write v hm (by omega)

/-- The canonical form says: the keys rise, and each lies below the bound. -/
theorem wf_iff {bound : Nat} {m : Memory α} :
    Memory.wf bound m = true ↔ Memory.rising m = true ∧ ∀ p ∈ m, p.1 < bound := by
  simp [Memory.wf]

@[simp] theorem wf_nil (bound : Nat) : Memory.wf bound ([] : Memory α) = true := rfl

theorem wf_write {bound a : Nat} (v : α) {m : Memory α} (hm : Memory.wf bound m = true) (ha : a < bound) :
    Memory.wf bound (Memory.write a v m) = true := by
  rw [wf_iff] at hm ⊢
  refine ⟨rising_write a v hm.1, fun p hp => ?_⟩
  rcases mem_write hp with rfl | hp
  · exact ha
  · exact hm.2 p hp

theorem wf_ofPairs {bound : Nat} {ps : List (Nat × α)} (h : ∀ p ∈ ps, p.1 < bound) :
    Memory.wf bound (Memory.ofPairs ps) = true := by
  induction ps with
  | nil => rfl
  | cons p rest ih =>
    exact wf_write _ (ih fun q hq => h q (List.mem_cons_of_mem _ hq)) (h p List.mem_cons_self)

/-! ## Sizes -/

theorem length_write_le (a : Nat) (v : α) (m : Memory α) : (Memory.write a v m).length ≤ m.length + 1 := by
  induction m with
  | nil => simp [Memory.write]
  | cons p rest ih =>
    simp only [Memory.write]
    split
    · simp
    · split <;> (simp; try omega)

theorem length_ofPairs_le (ps : List (Nat × α)) : (Memory.ofPairs ps).length ≤ ps.length := by
  induction ps with
  | nil => simp [Memory.ofPairs]
  | cons p rest ih =>
    have := length_write_le p.1 p.2 (Memory.ofPairs rest)
    simp only [Memory.ofPairs, List.foldr_cons, List.length_cons] at *
    omega

theorem ofPairs_ne_nil {ps : List (Nat × α)} (h : ps ≠ []) : Memory.ofPairs ps ≠ [] := by
  cases ps with
  | nil => exact absurd rfl h
  | cons p rest => exact write_ne_nil _ _ _

/-! ## What a built map holds -/

theorem mem_of_read {a : Nat} {v : α} {m : Memory α} (h : Memory.read m a = some v) : (a, v) ∈ m := by
  induction m with
  | nil => simp at h
  | cons p rest ih =>
    obtain ⟨k, u⟩ := p
    simp only [Memory.read] at h
    split at h
    · simp_all
    · exact List.mem_cons_of_mem _ (ih h)

theorem mem_of_read_ofPairs {a : Nat} {v : α} {ps : List (Nat × α)} (h : Memory.read (Memory.ofPairs ps) a = some v) :
    (a, v) ∈ ps := by
  induction ps with
  | nil => simp [Memory.ofPairs] at h
  | cons p rest ih =>
    by_cases hp : a = p.1
    · subst hp
      simp only [Memory.ofPairs, List.foldr_cons, read_write_same, Option.some.injEq] at h
      simp [← h]
    · rw [Memory.ofPairs, List.foldr_cons, read_write_other hp] at h
      exact List.mem_cons_of_mem _ (ih h)

/-- A list without a repeated key gives each key its value. -/
theorem read_ofPairs {a : Nat} {v : α} {ps : List (Nat × α)} (hd : (ps.map Prod.fst).Nodup) (h : (a, v) ∈ ps) :
    Memory.read (Memory.ofPairs ps) a = some v := by
  induction ps with
  | nil => simp at h
  | cons p rest ih =>
    rw [List.map_cons, List.nodup_cons] at hd
    rcases List.mem_cons.mp h with rfl | h
    · simp [Memory.ofPairs]
    · have hne : a ≠ p.1 := fun e => hd.1 (e ▸ List.mem_map_of_mem (f := Prod.fst) h)
      rw [Memory.ofPairs, List.foldr_cons, read_write_other hne]
      exact ih hd.2 h

/-! ## Equal maps are equal data -/

theorem read_eq_none_of_risingFrom {low a : Nat} {m : Memory α} (hm : Memory.risingFrom low m = true) (h : a ≤ low) :
    Memory.read m a = none := by
  induction m generalizing low with
  | nil => rfl
  | cons p rest ih =>
    obtain ⟨k, u⟩ := p
    simp only [Memory.risingFrom, Bool.and_eq_true, decide_eq_true_eq] at hm
    rw [Memory.read, if_neg (by omega)]
    exact ih hm.2 (by omega)

/-- Maps that hold the same have the same first entry, and their rests hold the same. -/
theorem read_eq_cons {k k' : Nat} {u u' : α} {rest rest' : Memory α} (hm : Memory.risingFrom k rest = true)
    (hn : Memory.risingFrom k' rest' = true)
    (h : ∀ a, Memory.read ((k, u) :: rest) a = Memory.read ((k', u') :: rest') a) :
    k = k' ∧ u = u' ∧ ∀ a, Memory.read rest a = Memory.read rest' a := by
  have hk : k = k' := by
    rcases Nat.lt_trichotomy k k' with hlt | heq | hgt
    · have := h k
      rw [Memory.read, if_pos rfl, Memory.read, if_neg (by omega), read_eq_none_of_risingFrom hn (by omega)] at this
      simp at this
    · exact heq
    · have := h k'
      rw [Memory.read, if_neg (by omega), read_eq_none_of_risingFrom hm (by omega), Memory.read, if_pos rfl] at this
      simp at this
  subst hk
  refine ⟨rfl, by simpa [Memory.read] using h k, fun a => ?_⟩
  by_cases ha : a = k
  · rw [ha, read_eq_none_of_risingFrom hm (Nat.le_refl _), read_eq_none_of_risingFrom hn (Nat.le_refl _)]
  · simpa [Memory.read, ha] using h a

theorem eq_of_read_eq_of_risingFrom {low low' : Nat} {m n : Memory α} (hm : Memory.risingFrom low m = true)
    (hn : Memory.risingFrom low' n = true) (h : ∀ a, Memory.read m a = Memory.read n a) : m = n := by
  induction m generalizing low low' n with
  | nil =>
    cases n with
    | nil => rfl
    | cons q rest => have := h q.1; simp [Memory.read] at this
  | cons p rest ih =>
    cases n with
    | nil => have := h p.1; simp [Memory.read] at this
    | cons q rest' =>
      simp only [Memory.risingFrom, Bool.and_eq_true, decide_eq_true_eq] at hm hn
      obtain ⟨hk, hu, hrest⟩ := read_eq_cons hm.2 hn.2 h
      rw [ih hm.2 hn.2 hrest, Prod.ext hk hu]

/-- Two maps in canonical form that hold the same are the same list. -/
theorem eq_of_read_eq {bound : Nat} {m n : Memory α} (hm : Memory.wf bound m = true) (hn : Memory.wf bound n = true)
    (h : ∀ a, Memory.read m a = Memory.read n a) : m = n := by
  cases m with
  | nil =>
    cases n with
    | nil => rfl
    | cons q rest => have := h q.1; simp [Memory.read] at this
  | cons p rest =>
    cases n with
    | nil => have := h p.1; simp [Memory.read] at this
    | cons q rest' =>
      obtain ⟨hk, hu, hrest⟩ := read_eq_cons (wf_iff.mp hm).1 (wf_iff.mp hn).1 h
      rw [eq_of_read_eq_of_risingFrom (wf_iff.mp hm).1 (wf_iff.mp hn).1 hrest, Prod.ext hk hu]

end Sys2Proof.Machine
end

