-- ==== Sys2Proof/Laws/State.lean ====
section
/-! SUPPORT. What every update of the state does to every field: one lemma per field per update. -/

namespace Sys2Proof.Machine

variable (s : State)

/-! ## countCycle -/

@[simp] theorem countCycle_regs : s.countCycle.regs = s.regs := rfl
@[simp] theorem countCycle_pc : s.countCycle.pc = s.pc := rfl
@[simp] theorem countCycle_runState : s.countCycle.runState = s.runState := rfl
@[simp] theorem countCycle_cycleCount : s.countCycle.cycleCount = s.cycleCount + 1 := rfl
@[simp] theorem countCycle_lastError : s.countCycle.lastError = s.lastError := rfl
@[simp] theorem countCycle_stack : s.countCycle.stack = s.stack := rfl
@[simp] theorem countCycle_stackCap : s.countCycle.stackCap = s.stackCap := rfl
@[simp] theorem countCycle_recentInstr : s.countCycle.recentInstr = s.recentInstr := rfl
@[simp] theorem countCycle_recentJumps : s.countCycle.recentJumps = s.recentJumps := rfl
@[simp] theorem countCycle_imem : s.countCycle.imem = s.imem := rfl
@[simp] theorem countCycle_labels : s.countCycle.labels = s.labels := rfl
@[simp] theorem countCycle_loaded : s.countCycle.loaded = s.loaded := rfl
@[simp] theorem countCycle_loadFailed : s.countCycle.loadFailed = s.loadFailed := rfl

/-! ## setPc -/

@[simp] theorem setPc_regs (v : Word) : (s.setPc v).regs = s.regs := rfl
@[simp] theorem setPc_pc (v : Word) : (s.setPc v).pc = v := rfl
@[simp] theorem setPc_runState (v : Word) : (s.setPc v).runState = s.runState := rfl
@[simp] theorem setPc_cycleCount (v : Word) : (s.setPc v).cycleCount = s.cycleCount := rfl
@[simp] theorem setPc_lastError (v : Word) : (s.setPc v).lastError = s.lastError := rfl
@[simp] theorem setPc_stack (v : Word) : (s.setPc v).stack = s.stack := rfl
@[simp] theorem setPc_stackCap (v : Word) : (s.setPc v).stackCap = s.stackCap := rfl
@[simp] theorem setPc_recentInstr (v : Word) : (s.setPc v).recentInstr = s.recentInstr := rfl
@[simp] theorem setPc_recentJumps (v : Word) : (s.setPc v).recentJumps = s.recentJumps := rfl
@[simp] theorem setPc_imem (v : Word) : (s.setPc v).imem = s.imem := rfl
@[simp] theorem setPc_labels (v : Word) : (s.setPc v).labels = s.labels := rfl
@[simp] theorem setPc_loaded (v : Word) : (s.setPc v).loaded = s.loaded := rfl
@[simp] theorem setPc_loadFailed (v : Word) : (s.setPc v).loadFailed = s.loadFailed := rfl

/-! ## advancePc -/

@[simp] theorem advancePc_regs : s.advancePc.regs = s.regs := rfl
@[simp] theorem advancePc_pc : s.advancePc.pc = nextPc s.pc := rfl
@[simp] theorem advancePc_runState : s.advancePc.runState = s.runState := rfl
@[simp] theorem advancePc_cycleCount : s.advancePc.cycleCount = s.cycleCount := rfl
@[simp] theorem advancePc_lastError : s.advancePc.lastError = s.lastError := rfl
@[simp] theorem advancePc_stack : s.advancePc.stack = s.stack := rfl
@[simp] theorem advancePc_stackCap : s.advancePc.stackCap = s.stackCap := rfl
@[simp] theorem advancePc_recentInstr : s.advancePc.recentInstr = s.recentInstr := rfl
@[simp] theorem advancePc_recentJumps : s.advancePc.recentJumps = s.recentJumps := rfl
@[simp] theorem advancePc_imem : s.advancePc.imem = s.imem := rfl
@[simp] theorem advancePc_labels : s.advancePc.labels = s.labels := rfl
@[simp] theorem advancePc_loaded : s.advancePc.loaded = s.loaded := rfl
@[simp] theorem advancePc_loadFailed : s.advancePc.loadFailed = s.loadFailed := rfl

/-! ## setRunState -/

@[simp] theorem setRunState_regs (r : RunState) : (s.setRunState r).regs = s.regs := rfl
@[simp] theorem setRunState_pc (r : RunState) : (s.setRunState r).pc = s.pc := rfl
@[simp] theorem setRunState_runState (r : RunState) : (s.setRunState r).runState = r := rfl
@[simp] theorem setRunState_cycleCount (r : RunState) : (s.setRunState r).cycleCount = s.cycleCount := rfl
@[simp] theorem setRunState_lastError (r : RunState) : (s.setRunState r).lastError = s.lastError := rfl
@[simp] theorem setRunState_stack (r : RunState) : (s.setRunState r).stack = s.stack := rfl
@[simp] theorem setRunState_stackCap (r : RunState) : (s.setRunState r).stackCap = s.stackCap := rfl
@[simp] theorem setRunState_recentInstr (r : RunState) : (s.setRunState r).recentInstr = s.recentInstr := rfl
@[simp] theorem setRunState_recentJumps (r : RunState) : (s.setRunState r).recentJumps = s.recentJumps := rfl
@[simp] theorem setRunState_imem (r : RunState) : (s.setRunState r).imem = s.imem := rfl
@[simp] theorem setRunState_labels (r : RunState) : (s.setRunState r).labels = s.labels := rfl
@[simp] theorem setRunState_loaded (r : RunState) : (s.setRunState r).loaded = s.loaded := rfl
@[simp] theorem setRunState_loadFailed (r : RunState) : (s.setRunState r).loadFailed = s.loadFailed := rfl

/-! ## setLastError -/

@[simp] theorem setLastError_regs (e : LastError) : (s.setLastError e).regs = s.regs := rfl
@[simp] theorem setLastError_pc (e : LastError) : (s.setLastError e).pc = s.pc := rfl
@[simp] theorem setLastError_runState (e : LastError) : (s.setLastError e).runState = s.runState := rfl
@[simp] theorem setLastError_cycleCount (e : LastError) : (s.setLastError e).cycleCount = s.cycleCount := rfl
@[simp] theorem setLastError_lastError (e : LastError) : (s.setLastError e).lastError = some e := rfl
@[simp] theorem setLastError_stack (e : LastError) : (s.setLastError e).stack = s.stack := rfl
@[simp] theorem setLastError_stackCap (e : LastError) : (s.setLastError e).stackCap = s.stackCap := rfl
@[simp] theorem setLastError_recentInstr (e : LastError) : (s.setLastError e).recentInstr = s.recentInstr := rfl
@[simp] theorem setLastError_recentJumps (e : LastError) : (s.setLastError e).recentJumps = s.recentJumps := rfl
@[simp] theorem setLastError_imem (e : LastError) : (s.setLastError e).imem = s.imem := rfl
@[simp] theorem setLastError_labels (e : LastError) : (s.setLastError e).labels = s.labels := rfl
@[simp] theorem setLastError_loaded (e : LastError) : (s.setLastError e).loaded = s.loaded := rfl
@[simp] theorem setLastError_loadFailed (e : LastError) : (s.setLastError e).loadFailed = s.loadFailed := rfl

/-! ## recordInstr -/

@[simp] theorem recordInstr_regs (r : InstrRecord) : (s.recordInstr r).regs = s.regs := rfl
@[simp] theorem recordInstr_pc (r : InstrRecord) : (s.recordInstr r).pc = s.pc := rfl
@[simp] theorem recordInstr_runState (r : InstrRecord) : (s.recordInstr r).runState = s.runState := rfl
@[simp] theorem recordInstr_cycleCount (r : InstrRecord) : (s.recordInstr r).cycleCount = s.cycleCount := rfl
@[simp] theorem recordInstr_lastError (r : InstrRecord) : (s.recordInstr r).lastError = s.lastError := rfl
@[simp] theorem recordInstr_stack (r : InstrRecord) : (s.recordInstr r).stack = s.stack := rfl
@[simp] theorem recordInstr_stackCap (r : InstrRecord) : (s.recordInstr r).stackCap = s.stackCap := rfl
@[simp] theorem recordInstr_recentInstr (r : InstrRecord) : (s.recordInstr r).recentInstr = pushBuffer Config.recentInstrCap s.recentInstr r := rfl
@[simp] theorem recordInstr_recentJumps (r : InstrRecord) : (s.recordInstr r).recentJumps = s.recentJumps := rfl
@[simp] theorem recordInstr_imem (r : InstrRecord) : (s.recordInstr r).imem = s.imem := rfl
@[simp] theorem recordInstr_labels (r : InstrRecord) : (s.recordInstr r).labels = s.labels := rfl
@[simp] theorem recordInstr_loaded (r : InstrRecord) : (s.recordInstr r).loaded = s.loaded := rfl
@[simp] theorem recordInstr_loadFailed (r : InstrRecord) : (s.recordInstr r).loadFailed = s.loadFailed := rfl

/-! ## recordJump -/

@[simp] theorem recordJump_regs (p : JumpPair) : (s.recordJump p).regs = s.regs := rfl
@[simp] theorem recordJump_pc (p : JumpPair) : (s.recordJump p).pc = s.pc := rfl
@[simp] theorem recordJump_runState (p : JumpPair) : (s.recordJump p).runState = s.runState := rfl
@[simp] theorem recordJump_cycleCount (p : JumpPair) : (s.recordJump p).cycleCount = s.cycleCount := rfl
@[simp] theorem recordJump_lastError (p : JumpPair) : (s.recordJump p).lastError = s.lastError := rfl
@[simp] theorem recordJump_stack (p : JumpPair) : (s.recordJump p).stack = s.stack := rfl
@[simp] theorem recordJump_stackCap (p : JumpPair) : (s.recordJump p).stackCap = s.stackCap := rfl
@[simp] theorem recordJump_recentInstr (p : JumpPair) : (s.recordJump p).recentInstr = s.recentInstr := rfl
@[simp] theorem recordJump_recentJumps (p : JumpPair) : (s.recordJump p).recentJumps = pushBuffer Config.recentJumpsCap s.recentJumps p := rfl
@[simp] theorem recordJump_imem (p : JumpPair) : (s.recordJump p).imem = s.imem := rfl
@[simp] theorem recordJump_labels (p : JumpPair) : (s.recordJump p).labels = s.labels := rfl
@[simp] theorem recordJump_loaded (p : JumpPair) : (s.recordJump p).loaded = s.loaded := rfl
@[simp] theorem recordJump_loadFailed (p : JumpPair) : (s.recordJump p).loadFailed = s.loadFailed := rfl

/-! ## enterErrored -/

@[simp] theorem enterErrored_regs (f : DispatchFault) : (s.enterErrored f).regs = s.regs := rfl
@[simp] theorem enterErrored_pc (f : DispatchFault) : (s.enterErrored f).pc = s.pc := rfl
@[simp] theorem enterErrored_runState (f : DispatchFault) : (s.enterErrored f).runState = .errored := rfl
@[simp] theorem enterErrored_cycleCount (f : DispatchFault) : (s.enterErrored f).cycleCount = s.cycleCount := rfl
@[simp] theorem enterErrored_lastError (f : DispatchFault) : (s.enterErrored f).lastError = some (faultReport f s.pc) := rfl
@[simp] theorem enterErrored_stack (f : DispatchFault) : (s.enterErrored f).stack = s.stack := rfl
@[simp] theorem enterErrored_stackCap (f : DispatchFault) : (s.enterErrored f).stackCap = s.stackCap := rfl
@[simp] theorem enterErrored_recentInstr (f : DispatchFault) : (s.enterErrored f).recentInstr = pushBuffer Config.recentInstrCap s.recentInstr (sentinel s.pc) := rfl
@[simp] theorem enterErrored_recentJumps (f : DispatchFault) : (s.enterErrored f).recentJumps = s.recentJumps := rfl
@[simp] theorem enterErrored_imem (f : DispatchFault) : (s.enterErrored f).imem = s.imem := rfl
@[simp] theorem enterErrored_labels (f : DispatchFault) : (s.enterErrored f).labels = s.labels := rfl
@[simp] theorem enterErrored_loaded (f : DispatchFault) : (s.enterErrored f).loaded = s.loaded := rfl
@[simp] theorem enterErrored_loadFailed (f : DispatchFault) : (s.enterErrored f).loadFailed = s.loadFailed := rfl

/-! ## afterFetch -/

@[simp] theorem afterFetch_regs (r : InstrRecord) : (s.afterFetch r).regs = s.regs := rfl
@[simp] theorem afterFetch_pc (r : InstrRecord) : (s.afterFetch r).pc = nextPc s.pc := rfl
@[simp] theorem afterFetch_runState (r : InstrRecord) : (s.afterFetch r).runState = s.runState := rfl
@[simp] theorem afterFetch_cycleCount (r : InstrRecord) : (s.afterFetch r).cycleCount = s.cycleCount := rfl
@[simp] theorem afterFetch_lastError (r : InstrRecord) : (s.afterFetch r).lastError = s.lastError := rfl
@[simp] theorem afterFetch_stack (r : InstrRecord) : (s.afterFetch r).stack = s.stack := rfl
@[simp] theorem afterFetch_stackCap (r : InstrRecord) : (s.afterFetch r).stackCap = s.stackCap := rfl
@[simp] theorem afterFetch_recentInstr (r : InstrRecord) : (s.afterFetch r).recentInstr = pushBuffer Config.recentInstrCap s.recentInstr r := rfl
@[simp] theorem afterFetch_recentJumps (r : InstrRecord) : (s.afterFetch r).recentJumps = s.recentJumps := rfl
@[simp] theorem afterFetch_imem (r : InstrRecord) : (s.afterFetch r).imem = s.imem := rfl
@[simp] theorem afterFetch_labels (r : InstrRecord) : (s.afterFetch r).labels = s.labels := rfl
@[simp] theorem afterFetch_loaded (r : InstrRecord) : (s.afterFetch r).loaded = s.loaded := rfl
@[simp] theorem afterFetch_loadFailed (r : InstrRecord) : (s.afterFetch r).loadFailed = s.loadFailed := rfl

/-! ## install -/

@[simp] theorem install_regs (a : LoadArgs) : (s.install a).regs = s.regs := rfl
@[simp] theorem install_pc (a : LoadArgs) : (s.install a).pc = rebase a.startOffset := rfl
@[simp] theorem install_runState (a : LoadArgs) : (s.install a).runState = s.runState := rfl
@[simp] theorem install_cycleCount (a : LoadArgs) : (s.install a).cycleCount = s.cycleCount := rfl
@[simp] theorem install_lastError (a : LoadArgs) : (s.install a).lastError = s.lastError := rfl
@[simp] theorem install_stack (a : LoadArgs) : (s.install a).stack = [] := rfl
@[simp] theorem install_stackCap (a : LoadArgs) : (s.install a).stackCap = a.cap := rfl
@[simp] theorem install_recentInstr (a : LoadArgs) : (s.install a).recentInstr = s.recentInstr := rfl
@[simp] theorem install_recentJumps (a : LoadArgs) : (s.install a).recentJumps = s.recentJumps := rfl
@[simp] theorem install_imem (a : LoadArgs) : (s.install a).imem = Memory.ofPairs a.instrPairs := rfl
@[simp] theorem install_labels (a : LoadArgs) : (s.install a).labels = Memory.ofPairs a.labelPairs := rfl
@[simp] theorem install_loaded (a : LoadArgs) : (s.install a).loaded = true := rfl
@[simp] theorem install_loadFailed (a : LoadArgs) : (s.install a).loadFailed = s.loadFailed := rfl

end Sys2Proof.Machine
end

