-- ==== Sys2Proof/Laws/Ops.lean ====
section
/-! SUPPORT. What each shared operation answers, once: the Memory Unit's reads, containment, the register file and the
stack. -/

namespace Sys2Proof.Machine

variable {s t : State}

/-! ## Memory Unit -/

theorem readInstruction_of_some {a : Word} {e : Entry} (h : Memory.read s.imem (instrKey a) = some e) :
    s.readInstruction a = .ok ⟨a, (e.opcode.toNat : Int), e.operand⟩ := by
  simp [State.readInstruction, h]

theorem readInstruction_of_none {a : Word} (h : Memory.read s.imem (instrKey a) = none) :
    s.readInstruction a = .error ⟨.invalidAddress, a⟩ := by
  simp [State.readInstruction, h]

/-- A successful read is the entry at the address. -/
theorem readInstruction_ok {a : Word} {r : InstrRecord} (h : s.readInstruction a = .ok r) :
    ∃ e, Memory.read s.imem (instrKey a) = some e ∧ r = ⟨a, (e.opcode.toNat : Int), e.operand⟩ := by
  unfold State.readInstruction at h
  split at h
  · next e he => exact ⟨e, he, (Except.ok.inj h).symm⟩
  · cases h

/-- A failed read is an absent entry. -/
theorem readInstruction_error {a : Word} {f : DispatchFault} (h : s.readInstruction a = .error f) :
    Memory.read s.imem (instrKey a) = none ∧ f = ⟨.invalidAddress, a⟩ := by
  unfold State.readInstruction at h
  split at h
  · cases h
  · next he => exact ⟨he, (Except.error.inj h).symm⟩

theorem readInstruction_congr {a : Word} (h : s.imem = t.imem) : s.readInstruction a = t.readInstruction a := by
  simp [State.readInstruction, h]

theorem labelTarget_of_some {id : Half} {k : Word} (h : Memory.read s.labels (labelKey id) = some k) :
    s.labelTarget id = .ok (rebase k) := by
  simp [State.labelTarget, State.resolveLabel, h]

theorem labelTarget_of_none {id : Half} (h : Memory.read s.labels (labelKey id) = none) :
    s.labelTarget id = .error ⟨.unknownLabel, zext32 id⟩ := by
  simp [State.labelTarget, State.resolveLabel, h]

theorem labelTarget_congr {id : Half} (h : s.labels = t.labels) : s.labelTarget id = t.labelTarget id := by
  simp [State.labelTarget, State.resolveLabel, h]

/-! ## Containment -/

@[simp] theorem contain_ok {α : Type} (a : α) (s : State) (k : α → State) : contain (.ok a) s k = k a := rfl

@[simp] theorem contain_error {α : Type} (f : DispatchFault) (s : State) (k : α → State) :
    contain (.error f) s k = s.enterErrored f := rfl

/-! ## Register file -/

theorem regGet_in {idx : Int} (h0 : 0 ≤ idx) (h8 : idx < 8) (s : State) :
    s.regGet idx = .ok (s.regs[idx.toNat]'(by omega)) := by
  simp [State.regGet, h0, h8]

theorem regGet_out {idx : Int} (h : ¬ (0 ≤ idx ∧ idx < 8)) (s : State) :
    s.regGet idx = .error ⟨.invalidRegister, trunc32 idx⟩ := by
  rw [State.regGet, dif_neg h]

theorem regSet_in {idx v : Int} (h0 : 0 ≤ idx) (h8 : idx < 8) (s : State) :
    s.regSet idx v = .ok { s with regs := s.regs.set idx.toNat (trunc16 v) (by omega) } := by
  simp [State.regSet, h0, h8]

theorem regSet_out {idx v : Int} (h : ¬ (0 ≤ idx ∧ idx < 8)) (s : State) :
    s.regSet idx v = .error ⟨.invalidRegister, trunc32 idx⟩ := by
  rw [State.regSet, dif_neg h]

/-! ## Stack -/

theorem stackPush_room (v : Int) (h : s.stack.length < s.stackCap) :
    s.stackPush v = .ok { s with stack := s.stack ++ [trunc32 v] } := by
  simp [State.stackPush, h]

/-- A length that 32 bits hold is reported as it is. -/
theorem stackOverflowInfo_toNat {n : Nat} (h : n < 2 ^ 32) : (stackOverflowInfo n).toNat = n := by
  rw [stackOverflowInfo, if_pos h, BitVec.toNat_ofNat, Nat.mod_eq_of_lt h]

theorem stackPush_full (v : Int) (h : s.stackCap ≤ s.stack.length) :
    s.stackPush v = .error ⟨.stackOverflow, stackOverflowInfo s.stack.length⟩ := by
  simp [State.stackPush, Nat.not_lt.mpr h]

theorem stackPop_top {rest : List Word} {top : Word} (h : s.stack = rest ++ [top]) :
    s.stackPop = .ok (top, { s with stack := rest }) := by
  simp [State.stackPop, h]

theorem stackPop_empty (h : s.stack = []) : s.stackPop = .error ⟨.stackUnderflow, 0⟩ := by
  simp [State.stackPop, h]

/-! ## A handler's requests -/

theorem stackRequest_push (v : Int) (s : State) : s.stackRequest (.push v) = (s.stackPush v).map fun t => ([], t) := rfl

theorem stackRequest_pop (s : State) : s.stackRequest .pop = s.stackPop.map fun (top, t) => ([top], t) := rfl

/-- A request that is served changes the stack alone, and keeps it within its capacity. -/
theorem stackRequest_ok {r : StackRequest} {popped : List Word} (h : s.stackRequest r = .ok (popped, t)) :
    ∃ stack, t = { s with stack := stack } ∧ (s.stack.length ≤ s.stackCap → stack.length ≤ s.stackCap) := by
  cases r with
  | push v =>
    rw [stackRequest_push] at h
    unfold State.stackPush at h
    split at h
    · cases h; exact ⟨_, rfl, fun _ => by simp; omega⟩
    · cases h
  | pop =>
    rw [stackRequest_pop] at h
    unfold State.stackPop at h
    split at h
    · cases h; exact ⟨_, rfl, fun _ => by simp; omega⟩
    · cases h

theorem map_nil_append {ε : Type} (r : Except ε (List Word)) : r.map ([] ++ ·) = r := by
  cases r <;> rfl

theorem map_append_append {ε : Type} (r : Except ε (List Word)) (p q : List Word) :
    (r.map (q ++ ·)).map (p ++ ·) = r.map (p ++ q ++ ·) := by
  cases r <;> simp [Except.map]

theorem map_eq_ok {ε α β : Type} {r : Except ε α} {g : α → β} {b : β} (h : r.map g = .ok b) : ∃ a, r = .ok a ∧ g a = b := by
  cases r <;> cases h
  exact ⟨_, rfl, rfl⟩

@[simp] theorem serveStack_nil (s : State) : s.serveStack [] = (.ok [], s) := rfl

theorem serveStack_cons_ok {r : StackRequest} {rest : List StackRequest} {popped : List Word}
    (h : s.stackRequest r = .ok (popped, t)) :
    s.serveStack (r :: rest) = ((t.serveStack rest).1.map (popped ++ ·), (t.serveStack rest).2) := by
  rw [State.serveStack, h]

theorem serveStack_cons_error {r : StackRequest} {rest : List StackRequest} {f : DispatchFault}
    (h : s.stackRequest r = .error f) : s.serveStack (r :: rest) = (.error f, s) := by
  rw [State.serveStack, h]

/-- Requests that are all served are followed by the rest, from the state they lead to. -/
theorem serveStack_append_ok {first : List StackRequest} {popped : List Word} (rest : List StackRequest)
    (h : s.serveStack first = (.ok popped, t)) :
    s.serveStack (first ++ rest) = ((t.serveStack rest).1.map (popped ++ ·), (t.serveStack rest).2) := by
  induction first generalizing s popped with
  | nil =>
    cases h
    rw [List.nil_append, map_nil_append]
  | cons r first ih =>
    cases hr : s.stackRequest r with
    | error f => rw [serveStack_cons_error hr] at h; cases h
    | ok a =>
      rw [serveStack_cons_ok hr] at h
      obtain ⟨q, hq, rfl⟩ := map_eq_ok (congrArg Prod.fst h)
      obtain rfl : (State.serveStack first a.2).2 = t := congrArg Prod.snd h
      rw [List.cons_append, serveStack_cons_ok hr, ih (Prod.ext hq rfl), map_append_append]

/-- Whatever the requests, they change the stack alone, and keep it within its capacity. -/
theorem serveStack_frame (rs : List StackRequest) (s : State) : ∃ stack, (s.serveStack rs).2 = { s with stack := stack } ∧
    (s.stack.length ≤ s.stackCap → stack.length ≤ s.stackCap) := by
  induction rs generalizing s with
  | nil => exact ⟨s.stack, rfl, id⟩
  | cons r rest ih =>
    cases hr : s.stackRequest r with
    | error f => exact ⟨s.stack, by rw [serveStack_cons_error hr], id⟩
    | ok a =>
      obtain ⟨_, t⟩ := a
      obtain ⟨stack, ht, hcap⟩ := stackRequest_ok hr
      obtain ⟨stack', hu, hcap'⟩ := ih t
      subst ht
      exact ⟨stack', by rw [serveStack_cons_ok hr]; exact hu, fun h => hcap' (hcap h)⟩

theorem withStack_ok {rs : List StackRequest} {popped : List Word} (k : List Word → State → State)
    (h : s.serveStack rs = (.ok popped, t)) : s.withStack rs k = k popped t := by
  rw [State.withStack, h]; rfl

theorem withStack_error {rs : List StackRequest} {f : DispatchFault} (k : List Word → State → State)
    (h : s.serveStack rs = (.error f, t)) : s.withStack rs k = t.enterErrored f := by
  rw [State.withStack, h]; rfl

end Sys2Proof.Machine
end

