-- ==== Sys2Proof/Laws/Step.lean ====
section
/-! SUPPORT. Everything a step can do, said once: the handlers, dispatch, and the inversion of `step`. -/

namespace Sys2Proof.Machine

variable {s t : State}

/-! ## Handlers -/

theorem execJmpl_known {label : Half} {k : Word} (h : Memory.read s.labels (labelKey label) = some k) :
    execJmpl label s = .next ((s.recordJump ⟨s.pc, rebase k⟩).setPc (rebase k)) := by
  simp [execJmpl, labelTarget_of_some h]

theorem execJmpl_unknown {label : Half} (h : Memory.read s.labels (labelKey label) = none) :
    execJmpl label s = .next (s.enterErrored ⟨.unknownLabel, zext32 label⟩) := by
  simp [execJmpl, labelTarget_of_none h]

/-! ## Dispatch -/

@[simp] theorem entryOfRecord_fetched (a : Word) (e : Entry) :
    entryOfRecord ⟨a, (e.opcode.toNat : Int), e.operand⟩ = e := by
  simp [entryOfRecord, trunc16]

theorem dispatch_of_decode {e : Entry} {i : Instr} (h : decodeEntry e = .ok i) (s : State) :
    dispatch e s = exec i s := by
  simp [dispatch, h]

theorem dispatch_nop {e : Entry} (h : e.opcode = 0#16) (s : State) : dispatch e s = .next s := by
  simp [dispatch, decodeEntry, h, exec, execNop]

theorem dispatch_jmpl {e : Entry} (h : e.opcode = 1#16) (s : State) : dispatch e s = execJmpl e.operand s := by
  simp [dispatch, decodeEntry, h, exec]

theorem dispatch_unknown {e : Entry} (h0 : e.opcode ≠ 0#16) (h1 : e.opcode ≠ 1#16) (s : State) :
    dispatch e s = .next (s.enterErrored ⟨.unknownOpcode, zext32 e.opcode⟩) := by
  simp [dispatch, decodeEntry, classify_other h0 h1, execUnknown]

/-! ## The cycle -/

/-- The state after steps 1 to 4 of a cycle that fetched the entry `e` (R102 to R106). -/
def fetchedState (e : Entry) (s : State) : State :=
  s.countCycle.afterFetch ⟨s.pc, (e.opcode.toNat : Int), e.operand⟩

theorem step_running (h : s.runState = .running) : step s = cycle s := by
  simp [step, gatedCycle, h]

theorem step_not_running (h : s.runState ≠ .running) : step s = .fault .preconditionError := by
  unfold step gatedCycle
  cases hr : s.runState <;> simp_all

theorem cycle_of_none (h : Memory.read s.imem (instrKey s.pc) = none) :
    cycle s = .next (s.countCycle.enterErrored ⟨.invalidAddress, s.pc⟩) := by
  have : s.countCycle.readInstruction s.pc = .error ⟨.invalidAddress, s.pc⟩ := readInstruction_of_none (by simpa using h)
  simp [cycle, this]

theorem cycle_of_some {e : Entry} (h : Memory.read s.imem (instrKey s.pc) = some e) :
    cycle s = dispatch e (fetchedState e s) := by
  have : s.countCycle.readInstruction s.pc = .ok ⟨s.pc, (e.opcode.toNat : Int), e.operand⟩ :=
    readInstruction_of_some (by simpa using h)
  simp [cycle, this, fetchedState]

/-- Placing an instruction keeps the instruction store's canonical form. -/
theorem placeEntry_wf {e : Entry} (h : Memory.wf (2 ^ 32) s.imem = true) :
    Memory.wf (2 ^ 32) (s.placeEntry e).imem = true :=
  wf_write e h s.pc.isLt

@[simp] theorem placeEntry_read (e : Entry) (s : State) : Memory.read (s.placeEntry e).imem (instrKey s.pc) = some e :=
  read_write_same _ _ _

/-- THE INVERSION OF A STEP: a step that answers a next state ran in `Running`, and is one of five cases: a failed
fetch, a no-op, a jump, an undefined label, an opcode without a handler. -/
theorem step_next_cases (h : step s = .next t) : s.runState = .running ∧
    ((Memory.read s.imem (instrKey s.pc) = none ∧ t = s.countCycle.enterErrored ⟨.invalidAddress, s.pc⟩) ∨
    ∃ e, Memory.read s.imem (instrKey s.pc) = some e ∧
      ((e.opcode = 0#16 ∧ t = fetchedState e s) ∨
      (∃ k, e.opcode = 1#16 ∧ Memory.read s.labels (labelKey e.operand) = some k ∧
        t = ((fetchedState e s).recordJump ⟨nextPc s.pc, rebase k⟩).setPc (rebase k)) ∨
      (e.opcode = 1#16 ∧ Memory.read s.labels (labelKey e.operand) = none ∧
        t = (fetchedState e s).enterErrored ⟨.unknownLabel, zext32 e.operand⟩) ∨
      (e.opcode ≠ 0#16 ∧ e.opcode ≠ 1#16 ∧ t = (fetchedState e s).enterErrored ⟨.unknownOpcode, zext32 e.opcode⟩))) := by
  have hr : s.runState = .running := by
    by_contra hr
    rw [step_not_running hr] at h
    cases h
  refine ⟨hr, ?_⟩
  rw [step_running hr] at h
  cases hm : Memory.read s.imem (instrKey s.pc) with
  | none =>
    rw [cycle_of_none hm, Host.Outcome.next.injEq] at h
    exact .inl ⟨rfl, h.symm⟩
  | some e =>
    refine .inr ⟨e, rfl, ?_⟩
    rw [cycle_of_some hm] at h
    have hl : (fetchedState e s).labels = s.labels := rfl
    by_cases h0 : e.opcode = 0#16
    · rw [dispatch_nop h0, Host.Outcome.next.injEq] at h
      exact .inl ⟨h0, h.symm⟩
    · by_cases h1 : e.opcode = 1#16
      · rw [dispatch_jmpl h1] at h
        cases hk : Memory.read s.labels (labelKey e.operand) with
        | some k =>
          rw [execJmpl_known (by rw [hl]; exact hk), Host.Outcome.next.injEq] at h
          exact .inr (.inl ⟨k, h1, rfl, h.symm⟩)
        | none =>
          rw [execJmpl_unknown (by rw [hl]; exact hk), Host.Outcome.next.injEq] at h
          exact .inr (.inr (.inl ⟨h1, rfl, h.symm⟩))
      · rw [dispatch_unknown h0 h1, Host.Outcome.next.injEq] at h
        exact .inr (.inr (.inr ⟨h0, h1, h.symm⟩))

end Sys2Proof.Machine
end

