-- ==== Sys2Proof/Laws/HostOps.lean ====
section
/-! SUPPORT. What each host operation answers, once. -/

namespace Sys2Proof.Machine

variable {s t : State} {lim : Limits} {args : LoadArgs}

/-! ## Load -/

theorem hasRepeat_eq_false_iff {l : List Nat} : hasRepeat l = false ↔ l.Nodup := by
  induction l with
  | nil => simp [hasRepeat]
  | cons a rest ih => simp [hasRepeat, ih]

/-- A `Load` whose arguments pass checks 2 to 5 (R158). -/
theorem check_eq_none_iff : args.check lim = none ↔
    args.instrs ≠ [] ∧ (args.labelPairs.map Prod.fst).Nodup ∧ (args.instrPairs.map Prod.fst).Nodup ∧
    args.instrs.length ≤ lim.imemMax ∧ args.labelList.length ≤ lim.labelMax ∧ args.cap ≤ lim.stackMax := by
  simp only [← hasRepeat_eq_false_iff, LoadArgs.check]
  split
  · simp [*]
  · split
    · simp [*]
    · split
      · simp [*]
      · split <;> simp_all
        omega

/-- Everything a `Load` can do: reject a second one, remember a malformed input, or install the program. -/
theorem loadOp_cases (lim : Limits) (args : LoadArgs) (s : State) :
    ((s.loaded = true ∨ s.loadFailed = true) ∧ loadOp lim args s = (.loadError .secondLoad, s)) ∨
    (s.loaded = false ∧ s.loadFailed = false ∧
      ((∃ reason, args.check lim = some reason ∧ loadOp lim args s = (.loadError reason, { s with loadFailed := true })) ∨
      (args.check lim = none ∧ loadOp lim args s = (.ok, s.install args)))) := by
  by_cases h : s.loaded = true ∨ s.loadFailed = true
  · exact .inl ⟨h, by simp [loadOp, h]⟩
  · refine .inr ⟨by simp_all, by simp_all, ?_⟩
    cases hc : args.check lim with
    | none => exact .inr ⟨rfl, by simp [loadOp, h, hc]⟩
    | some reason => exact .inl ⟨reason, rfl, by simp [loadOp, h, hc]⟩

/-! ## What an installed program reads as -/

theorem mem_instrPairs {a : Word} {e : Entry} : (instrKey a, e) ∈ args.instrPairs ↔ (a, e) ∈ args.instrs := by
  simp only [LoadArgs.instrPairs, List.mem_map, Prod.mk.injEq]
  constructor
  · rintro ⟨⟨b, e'⟩, h, hk, rfl⟩
    rwa [← BitVec.eq_of_toNat_eq hk]
  · exact fun h => ⟨_, h, rfl, rfl⟩

theorem mem_labelPairs {id : Half} {k : Word} : (labelKey id, k) ∈ args.labelPairs ↔ (id, k) ∈ args.labelList := by
  simp only [LoadArgs.labelPairs, List.mem_map, Prod.mk.injEq]
  constructor
  · rintro ⟨⟨b, e'⟩, h, hk, rfl⟩
    rwa [← BitVec.eq_of_toNat_eq hk]
  · exact fun h => ⟨_, h, rfl, rfl⟩

theorem read_install_imem (hc : args.check lim = none) {a : Word} {e : Entry} :
    Memory.read (s.install args).imem (instrKey a) = some e ↔ (a, e) ∈ args.instrs := by
  rw [← mem_instrPairs]
  exact ⟨mem_of_read_ofPairs, read_ofPairs (check_eq_none_iff.mp hc).2.2.1⟩

theorem read_install_labels (hc : args.check lim = none) {id : Half} {k : Word} :
    Memory.read (s.install args).labels (labelKey id) = some k ↔ (id, k) ∈ args.labelList := by
  rw [← mem_labelPairs]
  exact ⟨mem_of_read_ofPairs, read_ofPairs (check_eq_none_iff.mp hc).2.1⟩

theorem wf_instrPairs (args : LoadArgs) : Memory.wf (2 ^ 32) (Memory.ofPairs args.instrPairs) = true :=
  wf_ofPairs fun p hp => by
    simp only [LoadArgs.instrPairs, List.mem_map] at hp
    obtain ⟨q, _, rfl⟩ := hp
    exact q.1.isLt

theorem wf_labelPairs (args : LoadArgs) : Memory.wf (2 ^ 16) (Memory.ofPairs args.labelPairs) = true :=
  wf_ofPairs fun p hp => by
    simp only [LoadArgs.labelPairs, List.mem_map] at hp
    obtain ⟨q, _, rfl⟩ := hp
    exact q.1.isLt

/-! ## Start and run -/

/-- Everything a `Start` can do (R160). -/
theorem startOp_cases (s : State) :
    ((s.runState = .halted ∧ s.loaded = true ∧ s.loadFailed = false) ∧ startOp s = (.ok, s.setRunState .running)) ∨
    (¬ (s.runState = .halted ∧ s.loaded = true ∧ s.loadFailed = false) ∧ startOp s = (.preconditionError, s)) := by
  by_cases h : s.runState = .halted ∧ s.loaded = true ∧ s.loadFailed = false
  · exact .inl ⟨h, by simp [startOp, h]⟩
  · exact .inr ⟨h, by rw [startOp, if_neg h]⟩

theorem runCycleOp_of_next (h : step s = .next t) : runCycleOp s = (.cycle (cycleResult s.fetched t.runState), t) := by
  simp [runCycleOp, h]

theorem runCycleOp_not_running (h : s.runState ≠ .running) : runCycleOp s = (.preconditionError, s) := by
  simp [runCycleOp, step_not_running h]

end Sys2Proof.Machine
end

