-- ==== Sys2Proof/Laws/PerInstr.lean ====
section
/-! SUPPORT. The opcode table's match and mask (R88), instruction by instruction. -/

namespace Sys2Proof.Laws.TableMatch

/-- The opcode table's match value of an instruction. -/
def tableMatch : Instr → Word
  | .nop _ => 0x00000000#32
  | .jmpl _ => 0x00010000#32

/-- An instruction's word, under the table's mask, is the table's match value (R88). -/
def Statement (i : Instr) : Prop :=
  encode i &&& 0xFFFF0000#32 = tableMatch i

/-- Under the mask, a word keeps its opcode field and loses its operand. -/
theorem wordOfFields_and_mask (o d : Half) : wordOfFields ⟨o, d⟩ &&& 0xFFFF0000#32 = wordOfFields ⟨o, 0⟩ := by
  apply BitVec.eq_of_getLsbD_eq
  intro i hi
  have hmask : (0xFFFF0000#32).getLsbD i = decide (16 ≤ i) := by interval_cases i <;> rfl
  rw [BitVec.getLsbD_and, getLsbD_wordOfFields, getLsbD_wordOfFields, hmask]
  by_cases h : i < 16
  · simp [h]
  · simp [h, Nat.not_lt.mp h]

theorem nop (operand : Half) : Statement (.nop operand) :=
  (wordOfFields_and_mask 0 operand).trans (by simp only [tableMatch]; decide)

theorem jmpl (label : Half) : Statement (.jmpl label) :=
  (wordOfFields_and_mask 1 label).trans (by simp only [tableMatch]; decide)

end Sys2Proof.Laws.TableMatch
end

