-- ==== Sys2Proof/Machine/Listing.lean ====
section
/-! DEFINITION. The program listing of spec/30_encoding.md rule R92, as parsed lines, and the `Load` arguments it
describes; and the entries of a byte image (R82 to R84). The assembler is external to the block (R5 b); this is only the notation of programs. -/

namespace Sys2Proof.Machine

/-- How a listing names a label: by its identifier or by a name that a `.label` line gives one (R92). -/
inductive LabelRef where
  | id (label : Half)
  | name (label : String)
deriving DecidableEq, Repr

/-- One line of a listing (R92). -/
inductive ListingLine where
  | nop (imm : Half)
  | jmpl (label : LabelRef)
  | word (imm : Word)
  | label (name : String) (id : Half) (offset : Word)
  | start (offset : Word)
  | stack (cap : Nat)
deriving DecidableEq, Repr

/-- The identifier that the listing's `.label` lines give a name. -/
def labelNamed (name : String) : List ListingLine → Option Half
  | [] => none
  | .label n id _ :: rest => if n = name then some id else labelNamed name rest
  | _ :: rest => labelNamed name rest

/-- The identifier of a label reference. -/
def resolveRef (listing : List ListingLine) : LabelRef → Option Half
  | .id label => some label
  | .name label => labelNamed label listing

/-- The entries of the instruction lines, in order: one line, one instruction (R93); a directive emits none. None if a
name has no `.label` line. -/
def listingEntries (listing : List ListingLine) : List ListingLine → Option (List Entry)
  | [] => some []
  | .nop imm :: rest => (listingEntries listing rest).map (encodeEntry (.nop imm) :: ·)
  | .jmpl ref :: rest =>
    (resolveRef listing ref).bind fun label => (listingEntries listing rest).map (encodeEntry (.jmpl label) :: ·)
  | .word imm :: rest => (listingEntries listing rest).map (fieldsOfWord imm :: ·)
  | .label _ _ _ :: rest => listingEntries listing rest
  | .start _ :: rest => listingEntries listing rest
  | .stack _ :: rest => listingEntries listing rest

/-- The labels of the `.label` lines. -/
def listingLabels : List ListingLine → List (Half × Word)
  | [] => []
  | .label _ id offset :: rest => (id, offset) :: listingLabels rest
  | _ :: rest => listingLabels rest

/-- The offset of the first `.start` line. -/
def listingStart : List ListingLine → Option Word
  | [] => none
  | .start offset :: _ => some offset
  | _ :: rest => listingStart rest

/-- The capacity of the first `.stack` line. -/
def listingStack : List ListingLine → Option Nat
  | [] => none
  | .stack cap :: _ => some cap
  | _ :: rest => listingStack rest

/-- Entries at `CODE_BASE` plus 4 times their position among the instruction lines (R92), from position `k` on. DESIGN
CHOICE where that sum needs more than 32 bits, of which R92 says nothing: the address is the sum modulo `2^32` (log entry
19). -/
def placeEntries (k : Nat) : List Entry → List (Word × Entry)
  | [] => []
  | e :: rest => (rebase (BitVec.ofNat 32 (Config.instrWidth * k)), e) :: placeEntries (k + 1) rest

/-- The `Load` arguments of a listing (R92). A listing without a `.start` or a `.stack` line describes none, the spec
gives them no default: log entry 15. -/
def listingArgs (listing : List ListingLine) : Option LoadArgs :=
  match listingEntries listing listing, listingStart listing, listingStack listing with
  | some entries, some offset, some cap => some ⟨placeEntries 0 entries, listingLabels listing, offset, cap⟩
  | _, _, _ => none

/-! ## Byte images -/

/-- The entries of a byte image that starts at address `a` (R82 to R84), four bytes each; none for an image that ends
inside an instruction (R80). DESIGN CHOICE for an image that runs past the last address, of which the spec says nothing:
the addresses go on modulo `2^32` (log entry 19). -/
def imageEntries (a : Word) : List Byte → Option (List (Word × Entry))
  | [] => some []
  | b0 :: b1 :: b2 :: b3 :: rest =>
    (imageEntries (nextPc a) rest).map ((a, fieldsOfWord (wordOfBytes b0 b1 b2 b3)) :: ·)
  | _ => none

end Sys2Proof.Machine
end

