-- ==== Sys2Proof/Tests/Slice0.lean ====
section
/-! SUPPORT. The model's own tests. Expected results are the vectors of spec/95_test_vectors.md (named V-..., S..., P...)
or read off the rule named. Where a vector uses `CODE_BASE = 0x1000`, the test keeps the constant open. -/

namespace Sys2Proof.Tests

open Sys2Proof.Machine

/-! ## Well-formedness: each check refuses an ill-formed term (R36, R91) -/

theorem test_wellFormed_sentinel : (sentinel 0x1004).wellFormed = true := by decide
theorem test_wellFormed_refuses_below_sentinel : (InstrRecord.mk 0 (-2) 0).wellFormed = false := by decide
theorem test_wellFormed_refuses_wide_opcode : (InstrRecord.mk 0 65536 0).wellFormed = false := by decide
theorem test_wellFormed_refuses_sentinel_with_operand : (InstrRecord.mk 0 (-1) 1).wellFormed = false := by decide
theorem test_isFetched_refuses_sentinel : (sentinel 0).isFetched = false := by decide
theorem test_isFetched_top_opcode : (InstrRecord.mk 0x1000 65535 1).isFetched = true := by decide

/-! ## Decoding: words written out from the encoding (R81, R82, R88; V-A1 to V-A9) -/

theorem test_decode_nop : decodeWord 0b0000000000000000_0000000000000000#32 = .ok (.nop 0) := by decide
theorem test_decode_nop_operand : decodeWord 0b0000000000000000_0001001000110100#32 = .ok (.nop 0x1234) := by decide
theorem test_decode_jmpl : decodeWord 0b0000000000000001_0000000000000111#32 = .ok (.jmpl 7) := by decide
theorem test_decode_jmpl_top : decodeBytes [0x00, 0x01, 0xFF, 0xFF] = .ok (.jmpl 65535, []) := by decide
theorem test_decode_illegal : decodeWord 0x00020000#32 = .error (.unknownOpcode 2) := by decide
theorem test_decode_illegal_top : decodeWord 0xFFFF0000#32 = .error (.unknownOpcode 65535) := by decide
theorem test_decode_not_byte_swapped : decodeBytes [0x01, 0x00, 0x00, 0x00] = .error (.unknownOpcode 256) := by decide
theorem test_decode_fields_not_swapped : decodeBytes [0x00, 0x00, 0x00, 0x01] = .ok (.nop 1, []) := by decide
theorem test_decode_short : decodeBytes [0x00, 0x01, 0x00] = .error (.truncated 3) := by decide
theorem test_encode_jmpl : encodeBytes (.jmpl 7) = [0x00, 0x01, 0x00, 0x07] := by decide
theorem test_decodeTableWord_jmpl : decodeTableWord 32 0x00010007 = some (.jmpl 7) := by decide
theorem test_decodeTableWord_illegal : decodeTableWord 32 0x00020000 = none := by decide

/-! ## Steps -/

/-- A started CPU at `pc` with the given stores. -/
def started (pc : Word) (imem : Memory Entry) (labels : Memory Word) : State :=
  { State.reset with pc := pc, imem := imem, labels := labels, runState := .running, loaded := true }

/-- The state after one step, if there is one. -/
def afterStep (s : State) : Option State :=
  match step s with
  | .next t => some t
  | .fault _ => none
  | .refused _ => none

/-- V-C2: a no-op with operand `0xBEEF` at `0x1000`. -/
def nopState : State := started 0x1000 [(0x1000, ⟨0, 0xBEEF⟩)] []

/-- V-F1 with an open `CODE_BASE`: `jmpl 7` at `0x1004`, label 7 at offset `0x10`. -/
def jumpState : State := started 0x1004 [(0x1004, ⟨1, 7⟩)] [(7, 0x10)]

/-- V-F9: `jmpl 2` at `0x1000`, label 1 defined, label 2 not. -/
def danglingState : State := started 0x1000 [(0x1000, ⟨1, 2⟩)] [(1, 0)]

/-- V-D1: an opcode without a handler at `0x1000`. -/
def illegalState : State := started 0x1000 [(0x1000, ⟨2, 0⟩)] []

/-- V-E3: the program counter inside an instruction. -/
def misalignedState : State := started 0x1001 [(0x1000, ⟨0, 0⟩)] []

/-- V-C2: the operand is kept in the record and changes nothing else. -/
theorem test_step_nop : afterStep nopState = some { nopState with
    pc := 0x1004, cycleCount := 1, recentInstr := [⟨0x1000, 0, 0xBEEF⟩] } := by decide

/-- V-C3: the program counter wraps. -/
theorem test_step_nop_wraps :
    (afterStep (started 0xFFFFFFFC [(0xFFFFFFFC, ⟨0, 0⟩)] [])).map State.pc = some 0 := by decide

/-- V-F1. -/
theorem test_step_jmpl : afterStep jumpState = some { jumpState with
    pc := Config.codeBase + 0x10, cycleCount := 1, recentInstr := [⟨0x1004, 1, 7⟩],
    recentJumps := [⟨0x1008, Config.codeBase + 0x10⟩] } := rfl

/-- V-F9: the key is the operand, not the opcode value; `pc` keeps the advanced value. -/
theorem test_step_jmpl_undefined :
    (afterStep danglingState).map (fun t => (t.pc, t.runState, t.recentInstr, t.recentJumps)) =
      some (0x1004, .errored, [⟨0x1000, 1, 2⟩, ⟨0x1004, -1, 0⟩], []) ∧
    (afterStep danglingState).map (fun t => t.lastError.map fun e => (e.cause, e.info)) =
      some (some (.unknownLabel, 2)) := by decide

/-- V-D1. -/
theorem test_step_unknown_opcode :
    (afterStep illegalState).map (fun t => (t.pc, t.runState, t.cycleCount, t.recentInstr)) =
      some (0x1004, .errored, 1, [⟨0x1000, 2, 0⟩, ⟨0x1004, -1, 0⟩]) ∧
    (afterStep illegalState).map (fun t => t.lastError.map fun e => (e.cause, e.info)) =
      some (some (.unknownOpcode, 2)) := by decide

/-- V-D2: a fetched opcode `0xFFFF` is not the sentinel. -/
theorem test_step_top_opcode :
    (afterStep (started 0x1000 [(0x1000, ⟨0xFFFF, 1⟩)] [])).map State.recentInstr =
      some [⟨0x1000, 65535, 1⟩, ⟨0x1004, -1, 0⟩] := by decide

/-- V-E3: `pc` is not advanced and nothing fetched is recorded. -/
theorem test_step_fetch_fault :
    (afterStep misalignedState).map (fun t => (t.pc, t.runState, t.cycleCount, t.recentInstr)) =
      some (0x1001, .errored, 1, [⟨0x1001, -1, 0⟩]) ∧
    (afterStep misalignedState).map (fun t => t.lastError.map fun e => (e.cause, e.info)) =
      some (some (.invalidAddress, 0x1001)) := by decide

/-- V-B1: nothing runs after `Reset`. -/
theorem test_step_reset_rejected : step State.reset = .fault .preconditionError := rfl

/-- The placed word is the first instruction after reset. -/
theorem test_placed_word : afterStep (State.reset.withFetchWord 32 0x00001234) = some
    { State.reset.withFetchWord 32 0x00001234 with
      pc := 4, cycleCount := 1, recentInstr := [⟨0, 0, 0x1234⟩] } := by decide

/-! ## Buffers, register file, stack -/

/-- V-D3: two pushes to a full buffer evict the two oldest entries. -/
theorem test_push_evicts : pushBuffer 3 (pushBuffer 3 [1, 2, 3] 4) 5 = [3, 4, 5] := by decide

/-- V-G2: no eviction at exactly the capacity. -/
theorem test_push_fills : pushBuffer 3 [1, 2] 3 = [1, 2, 3] := by decide

/-- V-H1, V-H7: masked, and the neighbours untouched. -/
theorem test_regSet_masks : State.regSet 3 0x12345 State.reset =
    .ok { State.reset with regs := #v[0, 0, 0, 0x2345, 0, 0, 0, 0] } := by decide

/-- V-H4. -/
theorem test_regSet_negative : State.regSet 7 (-1) State.reset =
    .ok { State.reset with regs := #v[0, 0, 0, 0, 0, 0, 0, 0xFFFF] } := by decide

/-- V-H5, V-H6. -/
theorem test_reg_bad_index : State.regSet 8 1 State.reset = .error ⟨.invalidRegister, 8⟩ ∧
    State.regGet (-1) State.reset = .error ⟨.invalidRegister, 0xFFFFFFFF⟩ := by decide

/-- A CPU with a stack of the given content and capacity. -/
def stackState (stack : List Word) (cap : Nat) : State := { State.reset with stack := stack, stackCap := cap }

/-- V-I1. -/
theorem test_stack_overflow : State.serveStack [.push 5, .push 6, .push 7] (stackState [] 2) =
    (.error ⟨.stackOverflow, 2⟩, stackState [5, 6] 2) := by decide

/-- V-I1 and R144 inside a handler: the served pushes stay, the rest is not served. -/
theorem test_stack_overflow_contained :
    (State.withStack [.push 5, .push 6, .push 7, .pop] (stackState [] 2) fun _ t => t).stack = [5, 6] ∧
    (State.withStack [.push 5, .push 6, .push 7, .pop] (stackState [] 2) fun _ t => t).runState = .errored := by decide

/-- R142, R143, R145: pushes and pops mixed. -/
theorem test_stack_mixed : State.serveStack [.push 5, .pop, .push 6, .push 7, .pop] (stackState [] 2) =
    (.ok [5, 7], stackState [6] 2) := by decide

/-- V-I2. -/
theorem test_stack_underflow : State.serveStack [.pop, .pop] (stackState [5, 6] 2) = (.ok [6, 5], stackState [] 2) ∧
    State.serveStack [.pop, .pop, .pop] (stackState [5, 6] 2) = (.error ⟨.stackUnderflow, 0⟩, stackState [] 2) := by decide

/-- V-I4. -/
theorem test_stack_masks : State.stackPush 0x1FFFFFFFF (stackState [] 1) = .ok (stackState [0xFFFFFFFF] 1) := by decide

/-! ## Host operations -/

/-- Memory sizes for the tests. -/
def smallLimits : Limits := ⟨4, 4, 16⟩

/-- V-J6. -/
def oneNop : LoadArgs := ⟨[(0x1000, ⟨0, 0⟩)], [], 0, 8⟩

/-- V-J1: the ill-formed load of check 2. -/
theorem test_load_empty : LoadArgs.check smallLimits ⟨[], [], 0, 0⟩ = some .emptyStore := by decide

/-- V-J4: the ill-formed load of check 3. -/
theorem test_load_duplicate_label :
    LoadArgs.check smallLimits ⟨[(0x1000, ⟨0, 0⟩)], [(1, 0), (1, 4)], 0, 0⟩ = some .duplicateLabel := by decide

/-- V-J5: the ill-formed load of check 4. -/
theorem test_load_duplicate_address :
    LoadArgs.check smallLimits ⟨[(0x1000, ⟨0, 0⟩), (0x1000, ⟨1, 0⟩)], [], 0, 0⟩ = some .duplicateAddress := by decide

/-- R158: the ill-formed load of check 5. -/
theorem test_load_capacity :
    LoadArgs.check smallLimits ⟨[(0x1000, ⟨0, 0⟩)], [], 0, 17⟩ = some .capacity := by decide

/-- V-J8: overlap and dangling references are not checked. -/
theorem test_load_unchecked :
    LoadArgs.check smallLimits ⟨[(0x1000, ⟨0, 0⟩), (0x1002, ⟨0, 0⟩)], [(5, 0x9999)], 0x7777, 0⟩ = none := by decide

/-- V-J6, V-J7: a second `Load` is rejected without harm. -/
theorem test_load_twice : hostOps smallLimits [.reset, .load oneNop, .load oneNop, .start] State.reset =
    ([.nothing, .ok, .loadError .secondLoad, .ok],
      { State.reset with
        imem := [(0x1000, ⟨0, 0⟩)], stackCap := 8, loaded := true, runState := .running,
        pc := Config.codeBase + 0 }) := rfl

/-- V-J1 to V-J3: a malformed `Load` is fatal. -/
theorem test_load_failed_is_fatal :
    (hostOps smallLimits [.load ⟨[], [], 0, 0⟩, .load oneNop, .start, .runCycle] State.reset).1 =
      [.loadError .emptyStore, .loadError .secondLoad, .preconditionError, .preconditionError] := by decide

/-- V-H8: a bad register read is reported and changes nothing. -/
theorem test_read_bad_register : hostOp smallLimits (.readReg 9) nopState = (.invalidRegister, nopState) := by decide

/-- V-D1's result: the fetched instruction, not the sentinel. -/
theorem test_runCycle_faulted :
    (hostOp smallLimits .runCycle illegalState).1 = .cycle (.faulted (some ⟨0x1000, 2, 0⟩)) := by decide

/-- The listing of P1 (R92): entries at `CODE_BASE` plus 4 times their position. -/
theorem test_listing : listingArgs [.label "top" 4 0, .start 0, .stack 0, .nop 0, .nop 0, .jmpl (.name "top")] =
    some ⟨[(Config.codeBase + 0, ⟨0, 0⟩), (Config.codeBase + 4, ⟨0, 0⟩), (Config.codeBase + 8, ⟨1, 4⟩)],
      [(4, 0)], 0, 0⟩ := rfl

/-- The bytes of P1, as its listing gives them (R82). -/
theorem test_image : imageEntries 0x1000 [0x00, 0x00, 0x00, 0x00, 0x00, 0x00, 0x00, 0x00, 0x00, 0x01, 0x00, 0x04] =
    some [(0x1000, ⟨0, 0⟩), (0x1004, ⟨0, 0⟩), (0x1008, ⟨1, 4⟩)] := by decide

/-! ## Witnesses: concrete states and operands that meet a statement's hypotheses -/

/-- A fault report. -/
def someReport : LastError := ⟨.unknownOpcode, 2, ⟨'x', []⟩⟩

/-- A loaded CPU before `Start`. -/
def loadedState : State := { State.reset with imem := [(0, ⟨0, 0⟩)], loaded := true }

/-- A started CPU. -/
def runningState : State := { loadedState with runState := .running }

/-- An `Errored` CPU: V-D1's outcome, at address 0. -/
def erroredState : State :=
  { State.reset with
    imem := [(0, ⟨2, 0⟩)], loaded := true, runState := .errored, pc := 4, cycleCount := 1, lastError := some someReport,
    recentInstr := [⟨0, 2, 0⟩, ⟨4, -1, 0⟩] }

/-- S8: the source's end-to-end program, at `CODE_BASE`. -/
def loopProgram : LoadArgs :=
  ⟨[(rebase 0, ⟨0, 0⟩), (nextPc (rebase 0), ⟨1, 1⟩)], [(1, 0)], 0, 0⟩

theorem witness_DecodeOfEncodeIsIdentity : (Instr.jmpl 65535).wellFormed = true := by decide

theorem witness_DecodedWordIsTheEncoding : decodeWord 0x0001FFFF#32 = .ok (.jmpl 65535) ∧
    decodeBytes [0x00, 0x01, 0x00, 0x00, 0xAA] = .ok (.jmpl 0, [0xAA]) := by decide

theorem witness_FieldDecodingIsTotalAndInverse :
    (fieldsOfWord 0x00020000#32).opcode ≠ 0#16 ∧ (fieldsOfWord 0x00020000#32).opcode ≠ 1#16 := by decide

theorem witness_OpcodeMapByMatchAndMask :
    0x0000FFFF#32 &&& 0xFFFF0000#32 = 0x00000000#32 ∧ 0x0001FFFF#32 &&& 0xFFFF0000#32 = 0x00010000#32 ∧
    (0x00020000#32 &&& 0xFFFF0000#32 ≠ 0x00000000#32 ∧ 0x00020000#32 &&& 0xFFFF0000#32 ≠ 0x00010000#32) := by decide

theorem witness_ClassifyHasThreeArms : (2#16 ≠ 0#16 ∧ 2#16 ≠ 1#16) ∧ 65535#16 ≠ 0#16 ∧ 65535#16 ≠ 1#16 := by decide

theorem witness_MemoryUnitLookups : Memory.read jumpState.imem (0x1004#32).toNat = some ⟨1, 7⟩ ∧
    Memory.read jumpState.imem (0x1005#32).toNat = none ∧ Memory.read jumpState.labels (7#16).toNat = some 0x10 ∧
    Memory.read jumpState.labels (8#16).toNat = none ∧ jumpState.imem = { jumpState with pc := 0 }.imem ∧
    jumpState.labels = { jumpState with pc := 0 }.labels ∧ misalignedState.runState = .running ∧
    misalignedState.readInstruction misalignedState.pc = .error ⟨.invalidAddress, 0x1001⟩ := by decide

theorem witness_LabelTargetIsRebasedOffset : jumpState.resolveLabel 7 = .ok 0x10 ∧
    jumpState.resolveLabel 8 = .error ⟨.unknownLabel, 8⟩ := by decide

/-- One state for each of the three arms. -/
theorem witness_AdvanceAndRecordPrecedeDispatch :
    (nopState.runState = .running ∧ Memory.read nopState.imem nopState.pc.toNat = some ⟨0#16, 0xBEEF⟩) ∧
    (jumpState.runState = .running ∧ Memory.read jumpState.imem jumpState.pc.toNat = some ⟨1#16, 7⟩) ∧
    illegalState.runState = .running ∧ Memory.read illegalState.imem illegalState.pc.toNat = some ⟨2#16, 0⟩ := by decide

theorem witness_StepRunsTheDecodedInstruction : jumpState.runState = .running ∧
    Memory.read jumpState.imem jumpState.pc.toNat = some ⟨1, 7⟩ ∧ decodeEntry ⟨1, 7⟩ = .ok (.jmpl 7) := by decide

theorem witness_PlacedWordRunsNext : decodeTableWord 32 0x0001FFFF = some (.jmpl 65535) := by decide

theorem witness_CyclesRunExactlyWhenRunning : nopState.runState = .running ∧ State.reset.runState = .halted ∧
    erroredState.runState = .errored := by decide

theorem witness_FetchFaultEntersErrored : misalignedState.runState = .running ∧
    Memory.read misalignedState.imem misalignedState.pc.toNat = none := by decide

theorem witness_UnknownOpcodeEntersErrored : illegalState.runState = .running ∧
    Memory.read illegalState.imem illegalState.pc.toNat = some ⟨2, 0⟩ ∧ 2#16 ≠ 0#16 ∧ 2#16 ≠ 1#16 := by decide

theorem witness_NopCycle : nopState.runState = .running ∧
    Memory.read nopState.imem nopState.pc.toNat = some ⟨0#16, 0xBEEF⟩ := by decide

theorem witness_JmplCompletes : Memory.read jumpState.labels (7#16).toNat = some 0x10 := by decide

theorem witness_JmplCycle : jumpState.runState = .running ∧
    Memory.read jumpState.imem jumpState.pc.toNat = some ⟨1#16, 7⟩ ∧
    Memory.read jumpState.labels (7#16).toNat = some 0x10 := by decide

theorem witness_JmplUndefinedLabelEntersErrored : danglingState.runState = .running ∧
    Memory.read danglingState.imem danglingState.pc.toNat = some ⟨1#16, 2⟩ ∧
    Memory.read danglingState.labels (2#16).toNat = none := by decide

/-- A `nop`, a `jmpl` with a defined label and one with an undefined label. -/
theorem witness_HandlerFrame : (∃ t, exec (.nop 0) nopState = .next t) ∧
    (∃ t, exec (.jmpl 7) jumpState = .next t ∧ Memory.read jumpState.labels (7#16).toNat = some 0x10) ∧
    ∃ t, exec (.jmpl 2) danglingState = .next t ∧ Memory.read danglingState.labels (2#16).toNat = none :=
  ⟨⟨_, rfl⟩, ⟨_, rfl, rfl⟩, ⟨_, rfl, rfl⟩⟩

/-- A step of each of the five kinds; also for the statements `CyclePushesAtMostTwoRecords`, `PcChangesInThreeWays` and
`StoresAreWrittenOnlyByLoad`. -/
theorem witness_StepFrame : (∃ t, step nopState = .next t) ∧ (∃ t, step jumpState = .next t) ∧
    (∃ t, step danglingState = .next t) ∧ (∃ t, step illegalState = .next t) ∧ ∃ t, step misalignedState = .next t :=
  ⟨⟨_, rfl⟩, ⟨_, rfl⟩, ⟨_, rfl⟩, ⟨_, rfl⟩, ⟨_, rfl⟩⟩

theorem witness_CyclePushesAtMostTwoRecords : (∃ t, step nopState = .next t ∧
      (runCycleOp nopState).1 = .cycle (.done ⟨0x1000, 0, 0xBEEF⟩)) ∧
    ∃ t, step illegalState = .next t ∧ t.runState = .errored :=
  ⟨⟨_, rfl, rfl⟩, ⟨_, rfl, rfl⟩⟩

theorem witness_PcChangesInThreeWays : (∃ t, step misalignedState = .next t) ∧ (∃ t, step nopState = .next t) ∧
    ∃ t, step jumpState = .next t :=
  ⟨⟨_, rfl⟩, ⟨_, rfl⟩, ⟨_, rfl⟩⟩

theorem witness_RunCycleHasThreeOutcomes : nopState.runState = .running ∧ illegalState.runState = .running ∧
    misalignedState.runState = .running := by decide

theorem witness_FaultsArePrecise :
    (∃ t r, step illegalState = .next t ∧ t.runState = .errored ∧
      illegalState.readInstruction illegalState.pc = .ok r) ∧
    ∃ t f, step misalignedState = .next t ∧ t.runState = .errored ∧
      misalignedState.readInstruction misalignedState.pc = .error f :=
  ⟨⟨_, _, rfl, rfl, rfl⟩, ⟨_, _, rfl, rfl, rfl⟩⟩

/-- A run that goes on and a run that stops. -/
theorem witness_DiagnosticsNeverConsulted : (∃ t, Host.Core.run Sys2Proof.core 1 nopState = .next t) ∧
    Host.Core.run Sys2Proof.core 2 illegalState = .fault .preconditionError :=
  ⟨⟨_, rfl⟩, rfl⟩

theorem witness_RegistersAndStackNeverConsulted : (∃ t, Host.Core.run Sys2Proof.core 1 jumpState = .next t) ∧
    Host.Core.run Sys2Proof.core 2 misalignedState = .fault .preconditionError :=
  ⟨⟨_, rfl⟩, rfl⟩

theorem witness_EveryAcceptedCycleIsCounted : illegalState.runState = .running := by decide

theorem witness_CycleCountIsExact : ∃ t, Host.Core.run Sys2Proof.core 1 illegalState = .next t := ⟨_, rfl⟩

/-- A full buffer and one with room, of records and of pairs, each at its own capacity. -/
theorem witness_BufferHoldsTheLastEntries :
    ((List.replicate 20 (sentinel 0)).length = 20 ∧ (List.replicate 19 (sentinel 0)).length ≠ 20) ∧
    ((List.replicate 24 (⟨4, 8⟩ : JumpPair)).length = 24 ∧ (List.replicate 23 (⟨4, 8⟩ : JumpPair)).length ≠ 24) ∧
    0 < 20 ∧ 0 < 24 := by decide

/-- Each bound of the index range, a full stack and an empty one. -/
theorem witness_ServiceFailuresAreContained : ¬ ((0 : Int) ≤ -1 ∧ (-1 : Int) < 8) ∧ ¬ ((0 : Int) ≤ 8 ∧ (8 : Int) < 8) ∧
    (stackState [5] 1).stackCap ≤ (stackState [5] 1).stack.length ∧ (stackState [5] 1).stack.length < 2 ^ 32 ∧
    (stackState [] 1).stack = [] := by decide

theorem witness_ErroredIsTerminal : erroredState.runState = .errored ∧ erroredState.loaded = true ∧
    HostOp.reset ∉ [HostOp.load oneNop, .start, .runCycle, .readPC] := by decide

theorem witness_RegisterReadByIndex : (0 : Int) = (0 : Fin 8).val ∧ (7 : Int) = (7 : Fin 8).val ∧
    ((-1 : Int) < 0 ∨ 8 ≤ (-1 : Int)) ∧ ((8 : Int) < 0 ∨ 8 ≤ (8 : Int)) := by decide

theorem witness_RegisterWriteIsMasked : ((0 : Int) ≤ 0 ∧ (0 : Int) < 8) ∧ ((0 : Int) ≤ 7 ∧ (7 : Int) < 8) ∧
    (1 : Int) ≠ 0 ∧ ¬ ((0 : Int) ≤ 8 ∧ (8 : Int) < 8) ∧ ¬ ((0 : Int) ≤ -1 ∧ (-1 : Int) < 8) := by decide

theorem witness_StackPushAppendsOrOverflows : (stackState [5] 2).stack.length < (stackState [5] 2).stackCap ∧
    (stackState [5] 1).stackCap ≤ (stackState [5] 1).stack.length ∧ (stackState [5] 1).stack.length < 2 ^ 32 := by decide

theorem witness_StackIsLastInFirstOut :
    (stackState [5] 3).stack.length + ([6, 7] : List Int).length ≤ (stackState [5] 3).stackCap ∧
    (stackState [5, 6] 2).stack = [5] ++ [6] ∧ (stackState [] 0).stack = [] := by decide

/-- Requests that are served, then one that is and one that is not; each boundary of the capacity. -/
theorem witness_HandlerStackRequestsAreServedInOrder :
    State.serveStack [.push 5, .pop, .push 6] (stackState [] 1) = (.ok [5], stackState [6] 1) ∧
    (stackState [6] 1).stackRequest .pop = .ok ([6], stackState [] 1) ∧
    (stackState [6] 1).stackRequest (.push 7) = .error ⟨.stackOverflow, 1⟩ ∧
    (stackState [6] 1).stack.length ≤ (stackState [6] 1).stackCap ∧
    ((stackState [] 2).stack.length + ([5, 6] : List Int).length = (stackState [] 2).stackCap ∧
      (stackState [] 2).stackCap < 2 ^ 32) ∧
    (stackState [] 0).stack.length + ([] : List Int).length = (stackState [] 0).stackCap ∧
    (stackState [5, 6] 2).stack.length < 3 ∧ (stackState [] 0).stack.length < 1 := by decide

/-- Each check's failing input, and a passing one at each bound. -/
theorem witness_LoadChecksInOrder : (loadedState.loaded = true ∨ loadedState.loadFailed = true) ∧
    (State.reset.loaded = false ∧ State.reset.loadFailed = false) ∧
    ¬ (([(1, 0), (1, 4)] : List (Half × Word)).map Prod.fst).Nodup ∧
    ¬ (([(0x1000, ⟨0, 0⟩), (0x1000, ⟨1, 0⟩)] : List (Word × Entry)).map Prod.fst).Nodup ∧
    smallLimits.stackMax < 17 ∧
    (oneNop.instrs ≠ [] ∧ (oneNop.labelList.map Prod.fst).Nodup ∧ (oneNop.instrs.map Prod.fst).Nodup ∧
      oneNop.instrs.length ≤ (Limits.mk 1 0 8).imemMax ∧ oneNop.labelList.length ≤ (Limits.mk 1 0 8).labelMax ∧
      oneNop.cap ≤ (Limits.mk 1 0 8).stackMax) ∧
    { State.reset with loadFailed := true }.loadFailed = true := by decide

theorem witness_LoadInstallsExactlyTheProgram : ∃ t, hostOp smallLimits (.load oneNop) State.reset = (.ok, t) := ⟨_, rfl⟩

/-- Also for `BootOrderIsNeeded`. -/
theorem witness_FreshCpu : oneNop.check smallLimits = none := by decide

theorem witness_BootOrderIsNeeded : oneNop.check (Limits.mk 1 0 8) = none := by decide

theorem witness_StartNeedsALoadedHaltedCpu :
    (loadedState.runState = .halted ∧ loadedState.loaded = true ∧ loadedState.loadFailed = false) ∧
    ¬ (State.reset.runState = .halted ∧ State.reset.loaded = true ∧ State.reset.loadFailed = false) := by decide

theorem witness_RejectedOperationsChangeNothing : (State.reset.runState = .halted ∨ State.reset.runState = .errored) ∧
    (erroredState.runState = .halted ∨ erroredState.runState = .errored) ∧
    (runningState.runState ≠ .halted ∨ runningState.loaded = false ∨ runningState.loadFailed = true) ∧
    (State.reset.runState ≠ .halted ∨ State.reset.loaded = false ∨ State.reset.loadFailed = true) := by decide

theorem witness_StoresAreWrittenOnlyByLoad : (∃ t, step nopState = .next t) ∧
    ((hostOp smallLimits (.load oneNop) State.reset).2.imem ≠ State.reset.imem ∨
      (hostOp smallLimits (.load oneNop) State.reset).2.labels ≠ State.reset.labels) :=
  ⟨⟨_, rfl⟩, .inl (by decide)⟩

theorem witness_ReadsObserveAndChangeNothing : ((-1 : Int) < 0 ∨ 8 ≤ (-1 : Int)) ∧ ((8 : Int) < 0 ∨ 8 ≤ (8 : Int)) := by
  decide

/-- The sizes of the one-instruction witnesses. -/
def oneInstr : Limits := ⟨1, 0, 0⟩

/-- A state for each row of the table: not loaded, loaded, running, errored. -/
theorem witness_RunStateTransitionTable :
    (State.reset.Inv oneInstr ∧ State.reset.runState = .halted ∧ State.reset.loaded = false ∧
      State.reset.loadFailed = false) ∧
    (loadedState.Inv oneInstr ∧ loadedState.runState = .halted ∧ loadedState.loaded = true) ∧
    (runningState.Inv oneInstr ∧ runningState.runState = .running) ∧
    erroredState.Inv oneInstr ∧ erroredState.runState = .errored := by
  refine ⟨⟨?_, rfl, rfl, rfl⟩, ⟨?_, rfl, rfl⟩, ⟨?_, rfl⟩, ?_, rfl⟩
  all_goals
    constructor <;> decide

theorem witness_StepKeepsTheInvariant : runningState.Inv oneInstr ∧ ∃ t, step runningState = .next t :=
  ⟨witness_RunStateTransitionTable.2.2.1.1, _, rfl⟩

theorem witness_ReachableStatesHaveTheInvariant : erroredState.Inv oneInstr ∧
    Reachable smallLimits (hostOp smallLimits (.load oneNop) State.reset).2 :=
  ⟨witness_RunStateTransitionTable.2.2.2.1, .op _ .reset⟩

theorem witness_ReachableRegistersAndStackAreFresh :
    Reachable smallLimits (hostOp smallLimits .start (hostOp smallLimits (.load oneNop) State.reset).2).2 :=
  .op _ (.op _ .reset)

/-- A self-loop at `CODE_BASE` (V-F3). -/
theorem witness_ClosedCodeStaysOnTrack :
    (started (rebase 0) [(instrKey (rebase 0), ⟨1#16, 0#16⟩)] [(0, 0)]).OnTrack := by
  have one : ∀ a e, Memory.read [(instrKey (rebase 0), (⟨1#16, 0#16⟩ : Entry))] (instrKey a) = some e →
      e = ⟨1#16, 0#16⟩ := fun a e h => by
    simp only [Memory.read] at h
    split at h
    · simpa using h.symm
    · cases h
  refine ⟨rfl, ⟨⟨1#16, 0#16⟩, by simp [started, Memory.read]⟩, ⟨fun a e h => ?_, fun a e h h0 => ?_, fun a e h h1 => ?_⟩⟩
  · rw [one a e h]; exact .inr rfl
  · rw [one a e h] at h0; exact absurd h0 (by decide)
  · rw [one a e h]; exact ⟨0, by simp [started, Memory.read, labelKey], ⟨1#16, 0#16⟩, by simp [started, Memory.read]⟩

theorem nextPc_ne (a : Word) : nextPc a ≠ a := by
  simp [nextPc, Config.instrWidth]

/-- S8: a no-op, then a jump back to it. -/
theorem witness_ObedientProgramsNeverFault : loopProgram.check smallLimits = none ∧ loopProgram.Closed := by
  constructor
  · rw [check_eq_none_iff]
    have h : instrKey (rebase 0) ≠ instrKey (nextPc (rebase 0)) := fun h =>
      nextPc_ne (rebase 0) (BitVec.eq_of_toNat_eq h.symm)
    refine ⟨by simp [loopProgram], by simp [loopProgram, LoadArgs.labelPairs], ?_, by decide, by decide, by decide⟩
    simpa [loopProgram, LoadArgs.instrPairs] using h
  · refine ⟨⟨⟨0, 0⟩, by simp [loopProgram]⟩, ?_, ?_, ?_, ?_⟩ <;> simp [loopProgram]

end Sys2Proof.Tests
end

/-! # The state

Frames, counts and pushes of a step; runs that cannot tell two states apart; the invariant kept by a step. -/

namespace Sys2Proof.Machine

/-! ## A diagnostics buffer -/

section Buffer

variable {α : Type} {capacity : Nat} {buf : List α} {e : α}

theorem pushBuffer_not_full (h : buf.length ≠ capacity) : pushBuffer capacity buf e = buf ++ [e] := by
  simp [pushBuffer, h]

/-- A push keeps the last `capacity` of the entries it finds and the one it brings. -/
theorem pushBuffer_eq_drop (hc : 0 < capacity) (h : buf.length ≤ capacity) :
    pushBuffer capacity buf e = (buf ++ [e]).drop ((buf ++ [e]).length - capacity) := by
  rcases Nat.lt_or_eq_of_le h with h | h
  · have hdrop : (buf ++ [e]).length - capacity = 0 := by simp; omega
    rw [pushBuffer_below h, hdrop, List.drop_zero]
  · have hdrop : (buf ++ [e]).length - capacity = 1 := by simp; omega
    have hne : buf ≠ [] := List.ne_nil_of_length_pos (h ▸ hc)
    rw [pushBuffer_full h, hdrop, List.drop_one, List.tail_append_of_ne_nil hne]

theorem length_pushBuffer_le (hc : 0 < capacity) (h : buf.length ≤ capacity) :
    (pushBuffer capacity buf e).length ≤ capacity := by
  rw [length_pushBuffer hc h]
  exact Nat.min_le_left _ _

theorem forall_mem_pushBuffer {P : α → Prop} (h : ∀ x ∈ buf, P x) (he : P e) :
    ∀ x ∈ pushBuffer capacity buf e, P x := fun x hx =>
  (mem_pushBuffer hx).elim (h x) (· ▸ he)

/-- Pushes to a buffer within its capacity leave the last entries of all of them. -/
theorem foldl_pushBuffer_eq_drop (hc : 0 < capacity) (entries : List α) (h : buf.length ≤ capacity) :
    entries.foldl (pushBuffer capacity) buf = (buf ++ entries).drop ((buf ++ entries).length - capacity) := by
  induction entries generalizing buf with
  | nil =>
    rw [List.append_nil, Nat.sub_eq_zero_of_le h, List.drop_zero, List.foldl_nil]
  | cons e rest ih =>
    rw [List.foldl_cons, ih (length_pushBuffer_le hc h), pushBuffer_eq_drop hc h,
      ← List.drop_append_of_le_length (Nat.sub_le _ _), List.append_assoc, List.drop_drop]
    congr 1
    simp
    omega

end Buffer

/-- Settles O31, by induction on the entries pushed. -/
theorem bufferHoldsTheLastEntries : Obligations.BufferHoldsTheLastEntries :=
  ⟨fun _ _ _ _ => ⟨pushBuffer_full, pushBuffer_not_full⟩, fun _ _ _ entries hc h => foldl_pushBuffer_eq_drop hc entries h⟩

/-! ## One step, from what it finds

The converse of `step_next_cases`, case by case. -/

section Step

variable {s t : State} {e : Entry}

theorem step_of_fetch_fault (hr : s.runState = .running) (hm : Memory.read s.imem (instrKey s.pc) = none) :
    step s = .next (s.countCycle.enterErrored ⟨.invalidAddress, s.pc⟩) := by
  rw [step_running hr, cycle_of_none hm]

theorem step_of_fetch (hr : s.runState = .running) (hm : Memory.read s.imem (instrKey s.pc) = some e) :
    step s = dispatch e (fetchedState e s) := by
  rw [step_running hr, cycle_of_some hm]

theorem step_of_nop (hr : s.runState = .running) (hm : Memory.read s.imem (instrKey s.pc) = some e)
    (h0 : e.opcode = 0#16) : step s = .next (fetchedState e s) := by
  rw [step_of_fetch hr hm, dispatch_nop h0]

theorem step_of_jump {k : Word} (hr : s.runState = .running) (hm : Memory.read s.imem (instrKey s.pc) = some e)
    (h1 : e.opcode = 1#16) (hk : Memory.read s.labels (labelKey e.operand) = some k) :
    step s = .next (((fetchedState e s).recordJump ⟨nextPc s.pc, rebase k⟩).setPc (rebase k)) := by
  rw [step_of_fetch hr hm, dispatch_jmpl h1]
  exact execJmpl_known hk

theorem step_of_unknown_label (hr : s.runState = .running) (hm : Memory.read s.imem (instrKey s.pc) = some e)
    (h1 : e.opcode = 1#16) (hk : Memory.read s.labels (labelKey e.operand) = none) :
    step s = .next ((fetchedState e s).enterErrored ⟨.unknownLabel, zext32 e.operand⟩) := by
  rw [step_of_fetch hr hm, dispatch_jmpl h1]
  exact execJmpl_unknown hk

theorem step_of_unknown_opcode (hr : s.runState = .running) (hm : Memory.read s.imem (instrKey s.pc) = some e)
    (h0 : e.opcode ≠ 0#16) (h1 : e.opcode ≠ 1#16) :
    step s = .next ((fetchedState e s).enterErrored ⟨.unknownOpcode, zext32 e.opcode⟩) := by
  rw [step_of_fetch hr hm, dispatch_unknown h0 h1]

/-- A `Running` CPU accepts every cycle, faulting ones among them (R161, R221). -/
theorem exists_next_of_running (hr : s.runState = .running) : ∃ t, step s = .next t := by
  cases hm : Memory.read s.imem (instrKey s.pc) with
  | none => exact ⟨_, step_of_fetch_fault hr hm⟩
  | some e =>
    by_cases h0 : e.opcode = 0#16
    · exact ⟨_, step_of_nop hr hm h0⟩
    by_cases h1 : e.opcode = 1#16
    · cases hk : Memory.read s.labels (labelKey e.operand) with
      | none => exact ⟨_, step_of_unknown_label hr hm h1 hk⟩
      | some k => exact ⟨_, step_of_jump hr hm h1 hk⟩
    · exact ⟨_, step_of_unknown_opcode hr hm h0 h1⟩

theorem not_running_of_step_fault {f : Fault} (h : step s = .fault f) : s.runState ≠ .running := fun hr => by
  obtain ⟨t, ht⟩ := exists_next_of_running hr
  rw [ht] at h
  cases h

/-! ## What every step leaves unchanged, counts and pushes -/

/-- No step writes a register, the stack, a store or a load flag (R22, R33, R58, R59). -/
theorem step_frame (h : step s = .next t) :
    t.regs = s.regs ∧ t.stack = s.stack ∧ t.stackCap = s.stackCap ∧ t.imem = s.imem ∧ t.labels = s.labels ∧
    t.loaded = s.loaded ∧ t.loadFailed = s.loadFailed := by
  obtain ⟨-, ⟨-, rfl⟩ | ⟨e, -, ⟨-, rfl⟩ | ⟨k, -, -, rfl⟩ | ⟨-, -, rfl⟩ | ⟨-, -, rfl⟩⟩⟩ := step_next_cases h <;>
    exact ⟨rfl, rfl, rfl, rfl, rfl, rfl, rfl⟩

theorem step_cycleCount (h : step s = .next t) : t.cycleCount = s.cycleCount + 1 := by
  obtain ⟨-, ⟨-, rfl⟩ | ⟨e, -, ⟨-, rfl⟩ | ⟨k, -, -, rfl⟩ | ⟨-, -, rfl⟩ | ⟨-, -, rfl⟩⟩⟩ := step_next_cases h <;> rfl

/-- What a step pushes to the recent-instruction buffer (R113): the fetched record alone when the CPU stays `Running`;
the sentinel, after the fetched record if there is one, when it enters `Errored`. -/
theorem step_recentInstr (h : step s = .next t) :
    (t.runState = .running ∧ ∃ r, s.readInstruction s.pc = .ok r ∧
      t.recentInstr = pushBuffer Config.recentInstrCap s.recentInstr r) ∨
    (t.runState = .errored ∧ t.lastError.isSome = true ∧ ∃ before,
      (before = s.recentInstr ∨ ∃ r, s.readInstruction s.pc = .ok r ∧
        before = pushBuffer Config.recentInstrCap s.recentInstr r) ∧
      t.recentInstr = pushBuffer Config.recentInstrCap before (sentinel t.pc)) := by
  obtain ⟨hr, ⟨-, rfl⟩ | ⟨e, hm, h⟩⟩ := step_next_cases h
  · exact .inr ⟨rfl, rfl, _, .inl rfl, rfl⟩
  · have hfetch := readInstruction_of_some hm
    obtain ⟨-, rfl⟩ | ⟨k, -, -, rfl⟩ | ⟨-, -, rfl⟩ | ⟨-, -, rfl⟩ := h
    · exact .inl ⟨hr, _, hfetch, rfl⟩
    · exact .inl ⟨hr, _, hfetch, rfl⟩
    · exact .inr ⟨rfl, rfl, _, .inr ⟨_, hfetch, rfl⟩, rfl⟩
    · exact .inr ⟨rfl, rfl, _, .inr ⟨_, hfetch, rfl⟩, rfl⟩

/-- What pushes of the fetched record and of a sentinel keep, a step keeps. -/
theorem step_recentInstr_induction {P : List InstrRecord → Prop} (h : step s = .next t) (h0 : P s.recentInstr)
    (hfetched : ∀ buf r, s.readInstruction s.pc = .ok r → P buf → P (pushBuffer Config.recentInstrCap buf r))
    (hsentinel : ∀ buf pc, P buf → P (pushBuffer Config.recentInstrCap buf (sentinel pc))) : P t.recentInstr := by
  obtain ⟨-, r, hr, ht⟩ | ⟨-, -, before, rfl | ⟨r, hr, rfl⟩, ht⟩ := step_recentInstr h
  · exact ht ▸ hfetched _ r hr h0
  · exact ht ▸ hsentinel _ _ h0
  · exact ht ▸ hsentinel _ _ (hfetched _ r hr h0)

/-- What holds of every record before a step, of the fetched one and of a sentinel holds of every record after it. -/
theorem step_forall_recentInstr {P : InstrRecord → Prop} (h : step s = .next t) (h0 : ∀ r ∈ s.recentInstr, P r)
    (hfetched : ∀ r, s.readInstruction s.pc = .ok r → P r) (hsentinel : ∀ pc, P (sentinel pc)) :
    ∀ r ∈ t.recentInstr, P r :=
  step_recentInstr_induction (P := fun buf => ∀ r ∈ buf, P r) h h0
    (fun _ r hr hbuf => forall_mem_pushBuffer hbuf (hfetched r hr))
    fun _ pc hbuf => forall_mem_pushBuffer hbuf (hsentinel pc)

/-- What a step pushes to the recent-jump buffer (R113, R129): nothing, or a pair whose target is a label's. -/
theorem step_recentJumps (h : step s = .next t) :
    t.recentJumps = s.recentJumps ∨ ∃ p id, s.labelTarget id = .ok p.target ∧
      t.recentJumps = pushBuffer Config.recentJumpsCap s.recentJumps p := by
  obtain ⟨-, ⟨-, rfl⟩ | ⟨e, -, ⟨-, rfl⟩ | ⟨k, -, hk, rfl⟩ | ⟨-, -, rfl⟩ | ⟨-, -, rfl⟩⟩⟩ := step_next_cases h
  · exact .inl rfl
  · exact .inl rfl
  · exact .inr ⟨⟨nextPc s.pc, rebase k⟩, e.operand, labelTarget_of_some hk, rfl⟩
  · exact .inl rfl
  · exact .inl rfl

end Step

/-- Settles O26, by the five cases of a step. -/
theorem pcChangesInThreeWays : Obligations.PcChangesInThreeWays := by
  intro s t h
  obtain ⟨-, ⟨-, rfl⟩ | ⟨e, -, ⟨-, rfl⟩ | ⟨k, -, hk, rfl⟩ | ⟨-, -, rfl⟩ | ⟨-, -, rfl⟩⟩⟩ := step_next_cases h
  · exact .inl ⟨rfl, rfl⟩
  · exact .inr (.inl rfl)
  · exact .inr (.inr ⟨e.operand, k, hk, rfl⟩)
  · exact .inr (.inl rfl)
  · exact .inr (.inl rfl)

/-! ## Runs -/

section Run

variable {n : Nat} {s t : State}

theorem core_run_succ_eq_next (h : Host.Core.run Sys2Proof.core (n + 1) s = .next t) :
    ∃ u, step s = .next u ∧ Host.Core.run Sys2Proof.core n u = .next t := by
  rw [core_run_succ] at h
  cases hs : step s with
  | next u => rw [hs] at h; exact ⟨u, rfl, h⟩
  | fault f => rw [hs] at h; cases h
  | refused r => rw [hs] at h; cases h

theorem core_run_succ_eq_fault {f : Fault} (h : Host.Core.run Sys2Proof.core (n + 1) s = .fault f) :
    step s = .fault f ∨ ∃ u, step s = .next u ∧ Host.Core.run Sys2Proof.core n u = .fault f := by
  rw [core_run_succ] at h
  cases hs : step s with
  | next u => rw [hs] at h; exact .inr ⟨u, rfl, h⟩
  | fault g => rw [hs] at h; cases h; exact .inl rfl
  | refused r => rw [hs] at h; cases h

theorem core_run_succ_of_fault {f : Fault} (h : step s = .fault f) :
    Host.Core.run Sys2Proof.core (n + 1) s = .fault f := by
  simp [core_run_succ, h]

theorem core_run_cycleCount (h : Host.Core.run Sys2Proof.core n s = .next t) : t.cycleCount = s.cycleCount + n := by
  induction n generalizing s with
  | zero => cases h; rfl
  | succ n ih =>
    obtain ⟨u, hu, hrun⟩ := core_run_succ_eq_next h
    rw [ih hrun, step_cycleCount hu, Nat.add_assoc, Nat.add_comm 1]

theorem core_run_regs_stack (h : Host.Core.run Sys2Proof.core n s = .next t) :
    t.regs = s.regs ∧ t.stack = s.stack ∧ t.stackCap = s.stackCap := by
  induction n generalizing s with
  | zero => cases h; exact ⟨rfl, rfl, rfl⟩
  | succ n ih =>
    obtain ⟨u, hu, hrun⟩ := core_run_succ_eq_next h
    obtain ⟨hregs, hstack, hcap, -⟩ := step_frame hu
    rw [← hregs, ← hstack, ← hcap]
    exact ih hrun

end Run

/-- Settles O30, by induction on the number of cycles. -/
theorem cycleCountIsExact : Obligations.CycleCountIsExact := fun _ _ _ => core_run_cycleCount

/-! ## States that a cycle cannot tell apart -/

/-- A relation between states that no cycle breaks: related states agree on everything that selects what a cycle does,
and each update of a cycle keeps them related. -/
structure CycleBlind (R : State → State → Prop) : Prop where
  runState : ∀ {s s'}, R s s' → s'.runState = s.runState
  pc : ∀ {s s'}, R s s' → s'.pc = s.pc
  imem : ∀ {s s'}, R s s' → s'.imem = s.imem
  labels : ∀ {s s'}, R s s' → s'.labels = s.labels
  countCycle : ∀ {s s'}, R s s' → R s.countCycle s'.countCycle
  afterFetch : ∀ {s s'} (r : InstrRecord), R s s' → R (s.afterFetch r) (s'.afterFetch r)
  jump : ∀ {s s'} (p : JumpPair) (v : Word), R s s' → R ((s.recordJump p).setPc v) ((s'.recordJump p).setPc v)
  enterErrored : ∀ {s s'} (f : DispatchFault), R s s' → R (s.enterErrored f) (s'.enterErrored f)

namespace CycleBlind

variable {R : State → State → Prop} {n : Nat} {s s' t : State} {f : Fault}

theorem fetchedState_related (hR : CycleBlind R) (e : Entry) (h : R s s') :
    R (fetchedState e s) (fetchedState e s') := by
  rw [fetchedState, fetchedState, hR.pc h]
  exact hR.afterFetch _ (hR.countCycle h)

/-- Related states step alike, by the five cases of a step. -/
theorem step_next (hR : CycleBlind R) (h : R s s') (hs : step s = .next t) : ∃ t', step s' = .next t' ∧ R t t' := by
  obtain ⟨hr, hcase⟩ := step_next_cases hs
  have hpc := hR.pc h
  have hlabels := hR.labels h
  have hr' : s'.runState = .running := (hR.runState h).trans hr
  have hread : Memory.read s'.imem (instrKey s'.pc) = Memory.read s.imem (instrKey s.pc) := by rw [hR.imem h, hpc]
  obtain ⟨hm, rfl⟩ | ⟨e, hm, hcase⟩ := hcase
  · rw [← hpc]
    exact ⟨_, step_of_fetch_fault hr' (hread.trans hm), hR.enterErrored _ (hR.countCycle h)⟩
  have hm' := hread.trans hm
  have hfetched := hR.fetchedState_related e h
  rw [← hlabels] at hcase
  obtain ⟨h0, rfl⟩ | ⟨k, h1, hk, rfl⟩ | ⟨h1, hk, rfl⟩ | ⟨h0, h1, rfl⟩ := hcase
  · exact ⟨_, step_of_nop hr' hm' h0, hfetched⟩
  · rw [← hpc]
    exact ⟨_, step_of_jump hr' hm' h1 hk, hR.jump _ _ hfetched⟩
  · exact ⟨_, step_of_unknown_label hr' hm' h1 hk, hR.enterErrored _ hfetched⟩
  · exact ⟨_, step_of_unknown_opcode hr' hm' h0 h1, hR.enterErrored _ hfetched⟩

theorem step_fault (hR : CycleBlind R) (h : R s s') (hs : step s = .fault f) : step s' = .fault f := by
  have hr := not_running_of_step_fault hs
  rw [step_not_running hr] at hs
  rw [step_not_running (hR.runState h ▸ hr), hs]

theorem run_next (hR : CycleBlind R) (h : R s s') (hs : Host.Core.run Sys2Proof.core n s = .next t) :
    ∃ t', Host.Core.run Sys2Proof.core n s' = .next t' ∧ R t t' := by
  induction n generalizing s s' with
  | zero => cases hs; exact ⟨s', rfl, h⟩
  | succ n ih =>
    obtain ⟨u, hu, hrun⟩ := core_run_succ_eq_next hs
    obtain ⟨u', hu', huu'⟩ := hR.step_next h hu
    rw [core_run_succ_of_next hu']
    exact ih huu' hrun

theorem run_fault (hR : CycleBlind R) (h : R s s') (hs : Host.Core.run Sys2Proof.core n s = .fault f) :
    Host.Core.run Sys2Proof.core n s' = .fault f := by
  induction n generalizing s s' with
  | zero => cases hs
  | succ n ih =>
    obtain hstop | ⟨u, hu, hrun⟩ := core_run_succ_eq_fault hs
    · exact core_run_succ_of_fault (hR.step_fault h hstop)
    · obtain ⟨u', hu', huu'⟩ := hR.step_next h hu
      rw [core_run_succ_of_next hu']
      exact ih huu' hrun

end CycleBlind

/-- The second state is the first but for the two diagnostics buffers. -/
def SameButBuffers (s s' : State) : Prop :=
  ∃ instrs jumps, s' = { s with recentInstr := instrs, recentJumps := jumps }

/-- R39: nothing in a cycle reads a buffer. -/
theorem cycleBlind_sameButBuffers : CycleBlind SameButBuffers where
  runState := by rintro _ _ ⟨_, _, rfl⟩; rfl
  pc := by rintro _ _ ⟨_, _, rfl⟩; rfl
  imem := by rintro _ _ ⟨_, _, rfl⟩; rfl
  labels := by rintro _ _ ⟨_, _, rfl⟩; rfl
  countCycle := by rintro _ _ ⟨_, _, rfl⟩; exact ⟨_, _, rfl⟩
  afterFetch := by rintro _ _ _ ⟨_, _, rfl⟩; exact ⟨_, _, rfl⟩
  jump := by rintro _ _ _ _ ⟨_, _, rfl⟩; exact ⟨_, _, rfl⟩
  enterErrored := by rintro _ _ _ ⟨_, _, rfl⟩; exact ⟨_, _, rfl⟩

/-- Settles O27: states that differ in the buffers alone are states that a cycle cannot tell apart. -/
theorem diagnosticsNeverConsulted : Obligations.DiagnosticsNeverConsulted := by
  intro n s instrs jumps
  have hsame : SameButBuffers s { s with recentInstr := instrs, recentJumps := jumps } := ⟨instrs, jumps, rfl⟩
  refine ⟨fun t ht => ?_, fun f => cycleBlind_sameButBuffers.run_fault hsame⟩
  obtain ⟨_, hrun, instrs', jumps', rfl⟩ := cycleBlind_sameButBuffers.run_next hsame ht
  exact ⟨instrs', jumps', hrun⟩

/-- The second state is the first with these registers, this stack and this capacity. -/
def WithRegsAndStack (regs : Vector Half 8) (stack : List Word) (cap : Nat) (s s' : State) : Prop :=
  s' = { s with regs := regs, stack := stack, stackCap := cap }

/-- R23, R145: nothing in a cycle reads or writes a register or the stack. -/
theorem cycleBlind_withRegsAndStack (regs : Vector Half 8) (stack : List Word) (cap : Nat) :
    CycleBlind (WithRegsAndStack regs stack cap) where
  runState := by rintro _ _ rfl; rfl
  pc := by rintro _ _ rfl; rfl
  imem := by rintro _ _ rfl; rfl
  labels := by rintro _ _ rfl; rfl
  countCycle := by rintro _ _ rfl; rfl
  afterFetch := by rintro _ _ _ rfl; rfl
  jump := by rintro _ _ _ _ rfl; rfl
  enterErrored := by rintro _ _ _ rfl; rfl

/-- Settles O28: states with other registers and another stack are states that a cycle cannot tell apart, and a run keeps
both. -/
theorem registersAndStackNeverConsulted : Obligations.RegistersAndStackNeverConsulted := by
  intro n s regs stack cap
  have hblind := cycleBlind_withRegsAndStack regs stack cap
  refine ⟨fun t ht => ?_, fun f => hblind.run_fault rfl⟩
  obtain ⟨hregs, hstack, hcap⟩ := core_run_regs_stack ht
  obtain ⟨_, hrun, rfl⟩ := hblind.run_next rfl ht
  exact ⟨hregs, hstack, hcap, hrun⟩

/-! ## Host operations -/

section HostOps

variable {lim : Limits} {args : LoadArgs} {s : State}

/-- Everything a `RunCycle` can do (R161): one step, or a rejection. -/
theorem runCycleOp_cases (s : State) :
    (∃ t, step s = .next t ∧ runCycleOp s = (.cycle (cycleResult s.fetched t.runState), t)) ∨
    (s.runState ≠ .running ∧ runCycleOp s = (.preconditionError, s)) := by
  by_cases hr : s.runState = .running
  · obtain ⟨t, ht⟩ := exists_next_of_running hr
    exact .inl ⟨t, ht, runCycleOp_of_next ht⟩
  · exact .inr ⟨hr, runCycleOp_not_running hr⟩

theorem loadOp_reset (hc : args.check lim = none) : loadOp lim args State.reset = (.ok, State.reset.install args) := by
  obtain ⟨h | h, -⟩ | ⟨-, -, ⟨_, h, -⟩ | ⟨-, h⟩⟩ := loadOp_cases lim args State.reset
  · cases h
  · cases h
  · rw [hc] at h; cases h
  · exact h

/-- No host operation gives a register or the stack another value than its reset value (R23, R145, R156, R159). -/
theorem hostOp_regs_stack_fresh (o : HostOp) (h : s.regs = Vector.replicate 8 0#16 ∧ s.stack = []) :
    (hostOp lim o s).2.regs = Vector.replicate 8 0#16 ∧ (hostOp lim o s).2.stack = [] := by
  cases o with
  | reset => exact ⟨rfl, rfl⟩
  | load args =>
    obtain ⟨-, hload⟩ | ⟨-, -, ⟨_, -, hload⟩ | ⟨-, hload⟩⟩ := loadOp_cases lim args s
    · rw [hostOp, hload]; exact h
    · rw [hostOp, hload]; exact h
    · rw [hostOp, hload]; exact ⟨h.1, rfl⟩
  | start =>
    obtain ⟨-, hstart⟩ | ⟨-, hstart⟩ := startOp_cases s
    · rw [hostOp, hstart]; exact h
    · rw [hostOp, hstart]; exact h
  | runCycle =>
    obtain ⟨t, ht, hrun⟩ | ⟨-, hrun⟩ := runCycleOp_cases s
    · obtain ⟨hregs, hstack, -⟩ := step_frame ht
      rw [hostOp, hrun]
      exact ⟨hregs.trans h.1, hstack.trans h.2⟩
    · rw [hostOp, hrun]; exact h
  | readState | readCycleCount | readLastError | readPC | readReg | readRecentInstr | readRecentJumps => exact h

end HostOps

/-- Settles O42: the state is `Reset`'s, with the program installed. -/
theorem freshCpu : Obligations.FreshCpu := by
  intro lim args s hc
  refine ⟨State.reset.install args, ?_, rfl, rfl, rfl, rfl, rfl, rfl, rfl, rfl, rfl⟩
  simp [hostOps, hostOp, resetOp, loadOp_reset hc]

/-- Settles O52, by induction on the operations that reach the state. -/
theorem reachableRegistersAndStackAreFresh : Obligations.ReachableRegistersAndStackAreFresh := by
  intro lim s h
  induction h with
  | reset => exact ⟨rfl, rfl⟩
  | op o _ ih => exact hostOp_regs_stack_fresh o ih

/-! ## The invariant -/

/-- Settles O49: nothing is loaded, recorded or counted after `Reset`. -/
theorem resetHasTheInvariant : Obligations.ResetHasTheInvariant := fun _ =>
  { imem_wf := rfl
    labels_wf := rfl
    imem_bound := Nat.zero_le _
    labels_bound := Nat.zero_le _
    cap_bound := Nat.zero_le _
    stack_bound := Nat.le_refl _
    instr_buffer_bound := Nat.zero_le _
    jump_buffer_bound := Nat.zero_le _
    records_wf := List.forall_mem_nil _
    trace_faithful := List.forall_mem_nil _
    jump_targets := List.forall_mem_nil _
    load_once := fun h => by cases h.1
    unloaded_empty := fun _ => ⟨rfl, rfl, rfl, rfl⟩
    loaded_nonempty := fun h => by cases h
    halted_fresh := fun _ => ⟨rfl, rfl, rfl⟩
    started_loaded := fun h => absurd rfl h
    running_trace := fun h => by cases h
    jumps_counted := Nat.le_refl _
    errored_report := fun h => by cases h }

section Invariant

variable {lim : Limits} {s t : State}

theorem readInstruction_ok_opcode {a : Word} {r : InstrRecord} (h : s.readInstruction a = .ok r) :
    0 ≤ r.opcode ∧ r.opcode ≤ 65535 := by
  obtain ⟨e, -, rfl⟩ := readInstruction_ok h
  have hlt := e.opcode.isLt
  constructor <;> simp only <;> omega

theorem readInstruction_ok_wellFormed {a : Word} {r : InstrRecord} (h : s.readInstruction a = .ok r) :
    r.wellFormed = true := by
  have hop := readInstruction_ok_opcode h
  simp only [InstrRecord.wellFormed, Bool.and_eq_true, Bool.or_eq_true, decide_eq_true_eq]
  omega

theorem readInstruction_ok_address {a : Word} {r : InstrRecord} (h : s.readInstruction a = .ok r) :
    r.address = a := by
  obtain ⟨e, -, rfl⟩ := readInstruction_ok h
  rfl

theorem sentinel_wellFormed (pc : Word) : (sentinel pc).wellFormed = true := rfl

/-- Every record in the buffer after a step is well-formed, if every one before it is. -/
theorem step_records_wf (hi : s.Inv lim) (h : step s = .next t) : ∀ r ∈ t.recentInstr, r.wellFormed = true :=
  step_forall_recentInstr h hi.records_wf (fun _ => readInstruction_ok_wellFormed) sentinel_wellFormed

/-- A step records the instruction at its address, and the store it reads from stays. -/
theorem step_trace_faithful (hi : s.Inv lim) (h : step s = .next t) :
    ∀ r ∈ t.recentInstr, 0 ≤ r.opcode → t.readInstruction r.address = .ok r := by
  obtain ⟨-, -, -, himem, -⟩ := step_frame h
  have hread : ∀ a, t.readInstruction a = s.readInstruction a := fun _ => readInstruction_congr himem
  simp only [hread]
  refine step_forall_recentInstr h hi.trace_faithful (fun r hr _ => ?_) fun pc hop => ?_
  · rwa [readInstruction_ok_address hr]
  · exact absurd hop (by simp [sentinel])

theorem step_instr_buffer_bound (hi : s.Inv lim) (h : step s = .next t) :
    t.recentInstr.length ≤ Config.recentInstrCap :=
  step_recentInstr_induction (P := fun buf => buf.length ≤ Config.recentInstrCap) h hi.instr_buffer_bound
    (fun _ _ _ => length_pushBuffer_le (by decide)) fun _ _ => length_pushBuffer_le (by decide)

/-- A step that leaves the CPU `Running` pushed one record, the fetched one (R113). -/
theorem step_running_trace (hi : s.Inv lim) (h : step s = .next t) (hrun : t.runState = .running) :
    t.recentInstr.length = min Config.recentInstrCap t.cycleCount ∧ ∀ r ∈ t.recentInstr, 0 ≤ r.opcode := by
  obtain ⟨hlen, hops⟩ := hi.running_trace (step_next_cases h).1
  obtain ⟨-, r, hr, ht⟩ | ⟨herr, -⟩ := step_recentInstr h
  · rw [ht, step_cycleCount h, length_pushBuffer (by decide) hi.instr_buffer_bound, hlen]
    exact ⟨by omega, forall_mem_pushBuffer hops (readInstruction_ok_opcode hr).1⟩
  · rw [herr] at hrun; cases hrun

/-- A step that leaves the CPU `Errored` wrote the description and pushed the sentinel last (R185). -/
theorem step_errored_report (h : step s = .next t) (herr : t.runState = .errored) :
    t.lastError.isSome = true ∧ t.recentInstr.getLast? = some (sentinel t.pc) ∧ 0 < t.cycleCount := by
  obtain ⟨hrun, -⟩ | ⟨-, hlast, before, -, ht⟩ := step_recentInstr h
  · rw [hrun] at herr; cases herr
  · exact ⟨hlast, by rw [ht, getLast?_pushBuffer], by rw [step_cycleCount h]; omega⟩

theorem step_not_halted (h : step s = .next t) : t.runState ≠ .halted := by
  obtain ⟨hrun, -⟩ | ⟨herr, -⟩ := step_recentInstr h
  · rw [hrun]; decide
  · rw [herr]; decide

theorem step_jump_buffer_bound (hi : s.Inv lim) (h : step s = .next t) :
    t.recentJumps.length ≤ Config.recentJumpsCap := by
  obtain ht | ⟨p, id, -, ht⟩ := step_recentJumps h
  · exact ht ▸ hi.jump_buffer_bound
  · exact ht ▸ length_pushBuffer_le (by decide) hi.jump_buffer_bound

theorem step_jumps_counted (hi : s.Inv lim) (h : step s = .next t) : t.recentJumps.length ≤ t.cycleCount := by
  have hcount := hi.jumps_counted
  rw [step_cycleCount h]
  obtain ht | ⟨p, id, -, ht⟩ := step_recentJumps h
  · rw [ht]; omega
  · rw [ht]; exact length_pushBuffer_le_succ.trans (by omega)

/-- A step records a jump to a label's target, and the label table stays. -/
theorem step_jump_targets (hi : s.Inv lim) (h : step s = .next t) :
    ∀ p ∈ t.recentJumps, ∃ id, t.labelTarget id = .ok p.target := by
  obtain ⟨-, -, -, -, hlabels, -⟩ := step_frame h
  have htarget : ∀ id, t.labelTarget id = s.labelTarget id := fun _ => labelTarget_congr hlabels
  simp only [htarget]
  obtain ht | ⟨p, id, hp, ht⟩ := step_recentJumps h
  · exact ht ▸ hi.jump_targets
  · exact ht ▸ forall_mem_pushBuffer hi.jump_targets ⟨id, hp⟩

theorem step_keeps_inv (hi : s.Inv lim) (h : step s = .next t) : t.Inv lim := by
  obtain ⟨-, hstack, hcap, himem, hlabels, hloaded, hfailed⟩ := step_frame h
  have hrunning : s.runState ≠ .halted := by rw [(step_next_cases h).1]; decide
  have ht : t.loaded = true := hloaded.trans (hi.started_loaded hrunning)
  exact
  { imem_wf := himem ▸ hi.imem_wf
    labels_wf := hlabels ▸ hi.labels_wf
    imem_bound := himem ▸ hi.imem_bound
    labels_bound := hlabels ▸ hi.labels_bound
    cap_bound := hcap ▸ hi.cap_bound
    stack_bound := hstack ▸ hcap ▸ hi.stack_bound
    instr_buffer_bound := step_instr_buffer_bound hi h
    jump_buffer_bound := step_jump_buffer_bound hi h
    records_wf := step_records_wf hi h
    trace_faithful := step_trace_faithful hi h
    jump_targets := step_jump_targets hi h
    load_once := hloaded ▸ hfailed ▸ hi.load_once
    unloaded_empty := fun hf => by rw [ht] at hf; cases hf
    loaded_nonempty := fun _ => himem ▸ hi.loaded_nonempty (hi.started_loaded hrunning)
    halted_fresh := fun hh => absurd hh (step_not_halted h)
    started_loaded := fun _ => ht
    running_trace := step_running_trace hi h
    jumps_counted := step_jumps_counted hi h
    errored_report := step_errored_report h }

end Invariant

/-- Settles O50: a step changes the program counter, the counter, the run state, `lastError` and the buffers alone, and
each field of the invariant about these has its own lemma above. -/
theorem stepKeepsTheInvariant : Obligations.StepKeepsTheInvariant := fun _ _ _ => step_keeps_inv

end Sys2Proof.Machine

/-! # The memory

The Memory Unit's lookups, and which operations write its stores. -/

namespace Sys2Proof.Machine

/-! ## Lookups -/

section Lookups

variable {s t : State} {id : Half} {k : Word} {f : DispatchFault}

theorem resolveLabel_of_some (h : Memory.read s.labels (labelKey id) = some k) : s.resolveLabel id = .ok k := by
  simp [State.resolveLabel, h]

theorem resolveLabel_of_none (h : Memory.read s.labels (labelKey id) = none) :
    s.resolveLabel id = .error ⟨.unknownLabel, zext32 id⟩ := by
  simp [State.resolveLabel, h]

/-- A label lookup depends on the label table alone (R61). -/
theorem resolveLabel_congr (h : s.labels = t.labels) : s.resolveLabel id = t.resolveLabel id := by
  simp [State.resolveLabel, h]

theorem labelTarget_of_resolveLabel_ok (h : s.resolveLabel id = .ok k) : s.labelTarget id = .ok (rebase k) := by
  simp [State.labelTarget, h]

theorem labelTarget_of_resolveLabel_error (h : s.resolveLabel id = .error f) : s.labelTarget id = .error f := by
  simp [State.labelTarget, h]

/-- Re-basing is the sum modulo `2^32` (R62). -/
theorem rebase_toNat (k : Word) : (rebase k).toNat = (Config.codeBase.toNat + k.toNat) % 2 ^ 32 :=
  BitVec.toNat_add _ _

/-- A failed instruction read at the program counter ends the cycle in `Errored` (R104). -/
theorem step_of_readInstruction_error (hr : s.runState = .running) (h : s.readInstruction s.pc = .error f) :
    step s = .next (s.countCycle.enterErrored f) := by
  obtain ⟨hm, rfl⟩ := readInstruction_error h
  exact step_of_fetch_fault hr hm

end Lookups

/-- Settles O8: each lookup by what its store holds at the key, the failed fetch by the Errored entry. -/
theorem memoryUnitLookups : Obligations.MemoryUnitLookups := by
  refine ⟨?instrHit, ?instrMiss, ?labelHit, ?labelMiss, ?instrStore, ?labelTable, ?failedFetch⟩
  case instrHit => exact fun _ _ _ => readInstruction_of_some
  case instrMiss => exact fun _ _ => readInstruction_of_none
  case labelHit => exact fun _ _ _ => resolveLabel_of_some
  case labelMiss => exact fun _ _ => resolveLabel_of_none
  case instrStore => exact fun _ _ _ => readInstruction_congr
  case labelTable => exact fun _ _ _ => resolveLabel_congr
  case failedFetch => exact fun _ _ hr h => ⟨_, step_of_readInstruction_error hr h, rfl⟩

/-- Settles O9: the target is the stored offset, re-based. -/
theorem labelTargetIsRebasedOffset : Obligations.LabelTargetIsRebasedOffset :=
  ⟨fun _ _ k h => ⟨rebase k, labelTarget_of_resolveLabel_ok h, rebase_toNat k⟩,
    fun _ _ _ => labelTarget_of_resolveLabel_error⟩

/-! ## Writes of the stores -/

/-- Settles O22: no step writes a store, and each lookup depends on its own store alone. -/
theorem stepFrame : Obligations.StepFrame := by
  intro s t h
  obtain ⟨hregs, hstack, hcap, himem, hlabels, hloaded, hfailed⟩ := step_frame h
  exact ⟨hregs, hstack, hcap, himem, hlabels, hloaded, hfailed,
    fun _ => readInstruction_congr himem, fun _ => resolveLabel_congr hlabels⟩

/-- Every host operation keeps both stores, but a `Reset` and the `Load` that succeeds (R59). -/
theorem hostOp_stores (lim : Limits) (o : HostOp) (s : State) :
    ((hostOp lim o s).2.imem = s.imem ∧ (hostOp lim o s).2.labels = s.labels) ∨
    o = .reset ∨ ∃ args, o = .load args ∧ s.loaded = false ∧ s.loadFailed = false ∧ (hostOp lim o s).1 = .ok := by
  cases o with
  | reset => exact .inr (.inl rfl)
  | load args =>
    obtain ⟨-, hload⟩ | ⟨hloaded, hfailed, ⟨_, -, hload⟩ | ⟨-, hload⟩⟩ := loadOp_cases lim args s <;>
      rw [hostOp, hload]
    · exact .inl ⟨rfl, rfl⟩
    · exact .inl ⟨rfl, rfl⟩
    · exact .inr (.inr ⟨args, rfl, hloaded, hfailed, rfl⟩)
  | start =>
    obtain ⟨-, hstart⟩ | ⟨-, hstart⟩ := startOp_cases s <;> rw [hostOp, hstart] <;> exact .inl ⟨rfl, rfl⟩
  | runCycle =>
    obtain ⟨t, ht, hrun⟩ | ⟨-, hrun⟩ := runCycleOp_cases s <;> rw [hostOp, hrun]
    · obtain ⟨-, -, -, himem, hlabels, -⟩ := step_frame ht
      exact .inl ⟨himem, hlabels⟩
    · exact .inl ⟨rfl, rfl⟩
  | readState | readCycleCount | readLastError | readPC | readReg | readRecentInstr | readRecentJumps =>
    exact .inl ⟨rfl, rfl⟩

/-- Settles O45, by the frame of a step and the cases of a host operation. -/
theorem storesAreWrittenOnlyByLoad : Obligations.StoresAreWrittenOnlyByLoad := by
  refine ⟨fun s t h => ?_, fun lim o s hchanged => ?_⟩
  · obtain ⟨-, -, -, himem, hlabels, -⟩ := step_frame h
    exact ⟨himem, hlabels⟩
  · obtain ⟨himem, hlabels⟩ | hwriter := hostOp_stores lim o s
    · exact (hchanged.elim (· himem) (· hlabels)).elim
    · exact hwriter

end Sys2Proof.Machine

/-! # The encoding

Words, entries and images decode to the instruction they encode and to no other; the opcode map by match and mask. -/

namespace Sys2Proof

/-! ## Decode after encode, encode after decode -/

theorem decodeWord_encode (i : Instr) : decodeWord (encode i) = .ok i := by
  rw [decodeWord, encode, fieldsOfWord_wordOfFields, decodeEntry_encodeEntry]

theorem encodeEntry_of_decodeEntry {e : Entry} {i : Instr} (h : decodeEntry e = .ok i) : encodeEntry i = e := by
  obtain ⟨opcode, operand⟩ := e
  obtain ⟨rfl, hok⟩ | ⟨rfl, hok⟩ | ⟨-, -, herror⟩ := decodeEntry_cases ⟨opcode, operand⟩
  · cases h.symm.trans hok; rfl
  · cases h.symm.trans hok; rfl
  · cases h.symm.trans herror

theorem encode_of_decodeWord {w : Word} {i : Instr} (h : decodeWord w = .ok i) : encode i = w := by
  rw [encode, encodeEntry_of_decodeEntry h, wordOfFields_fieldsOfWord]

/-! ## Images -/

theorem decodeBytes_encodeBytes_append (i : Instr) (rest : List Byte) :
    decodeBytes (encodeBytes i ++ rest) = .ok (i, rest) := by
  rw [encodeBytes, decodeBytes_bytesOfWord, decodeWord_encode, Except.map]

/-- Each of the four bytes is cut out of the half of the word that holds it. -/
theorem bytesOfWord_wordOfBytes (b0 b1 b2 b3 : Byte) : bytesOfWord (wordOfBytes b0 b1 b2 b3) = [b0, b1, b2, b3] := by
  have h0 : ((b0 ++ b1) ++ (b2 ++ b3)).extractLsb' 24 8 = b0 :=
    (BitVec.extractLsb'_append_eq_of_le (by decide)).trans BitVec.extractLsb'_append_eq_left
  have h1 : ((b0 ++ b1) ++ (b2 ++ b3)).extractLsb' 16 8 = b1 :=
    (BitVec.extractLsb'_append_eq_of_le (by decide)).trans BitVec.extractLsb'_append_eq_right
  have h2 : ((b0 ++ b1) ++ (b2 ++ b3)).extractLsb' 8 8 = b2 :=
    (BitVec.extractLsb'_append_eq_of_add_le (by decide)).trans BitVec.extractLsb'_append_eq_left
  have h3 : ((b0 ++ b1) ++ (b2 ++ b3)).extractLsb' 0 8 = b3 :=
    (BitVec.extractLsb'_append_eq_of_add_le (by decide)).trans BitVec.extractLsb'_append_eq_right
  rw [bytesOfWord, wordOfBytes, h0, h1, h2, h3]

/-- An image that decodes begins with the four bytes of a word that decodes. -/
theorem eq_bytesOfWord_append_of_decodeBytes {image rest : List Byte} {i : Instr}
    (h : decodeBytes image = .ok (i, rest)) : ∃ w, decodeWord w = .ok i ∧ image = bytesOfWord w ++ rest := by
  match image, h with
  | b0 :: b1 :: b2 :: b3 :: tail, h =>
    have himage : b0 :: b1 :: b2 :: b3 :: tail = bytesOfWord (wordOfBytes b0 b1 b2 b3) ++ tail := by
      rw [bytesOfWord_wordOfBytes]; rfl
    rw [himage, decodeBytes_bytesOfWord] at h
    cases hw : decodeWord (wordOfBytes b0 b1 b2 b3) with
    | ok j => rw [hw] at h; cases h; exact ⟨_, hw, himage⟩
    | error => rw [hw] at h; cases h

theorem eq_encodeBytes_append_of_decodeBytes {image rest : List Byte} {i : Instr}
    (h : decodeBytes image = .ok (i, rest)) : image = encodeBytes i ++ rest := by
  obtain ⟨w, hw, himage⟩ := eq_bytesOfWord_append_of_decodeBytes h
  rw [himage, encodeBytes, encode_of_decodeWord hw]

/-! ## The opcode map -/

theorem decodeEntry_nop {e : Entry} (h : e.opcode = 0#16) : decodeEntry e = .ok (.nop e.operand) := by
  simp [decodeEntry, h]

theorem decodeEntry_jmpl {e : Entry} (h : e.opcode = 1#16) : decodeEntry e = .ok (.jmpl e.operand) := by
  simp [decodeEntry, h]

theorem decodeEntry_unknown {e : Entry} (h0 : e.opcode ≠ 0#16) (h1 : e.opcode ≠ 1#16) :
    decodeEntry e = .error (.unknownOpcode e.opcode) := by
  simp [decodeEntry, classify_other h0 h1]

/-- The mask of R88 keeps the opcode field and clears the operand field. -/
theorem and_opcodeMask (w : Word) : w &&& 0xFFFF0000#32 = wordOfFields ⟨(fieldsOfWord w).opcode, 0#16⟩ :=
  calc w &&& 0xFFFF0000#32
    _ = ((fieldsOfWord w).opcode ++ (fieldsOfWord w).operand) &&& (BitVec.allOnes 16 ++ 0#16) :=
      congrArg (· &&& 0xFFFF0000#32) (wordOfFields_fieldsOfWord w).symm
    _ = wordOfFields ⟨(fieldsOfWord w).opcode, 0#16⟩ := by
      rw [BitVec.and_append, BitVec.and_allOnes, BitVec.and_zero, wordOfFields]

/-- A word matches an opcode under the mask of R88 exactly when its opcode field is that opcode. -/
theorem and_opcodeMask_eq_iff (w : Word) (opcode : Half) :
    w &&& 0xFFFF0000#32 = wordOfFields ⟨opcode, 0#16⟩ ↔ (fieldsOfWord w).opcode = opcode := by
  rw [and_opcodeMask, wordOfFields, wordOfFields, BitVec.append_left_inj]

/-! ## The statements -/

/-- Settles O1, from the inverse laws of fields, words and bytes. -/
theorem decodeOfEncodeIsIdentity : Obligations.DecodeOfEncodeIsIdentity := fun i rest _ =>
  ⟨decodeWord_encode i, decodeEntry_encodeEntry i, decodeBytes_encodeBytes_append i rest⟩

/-- Settles O2: an entry that decodes is the encoding's, and a word and an image are given by their fields. -/
theorem decodedWordIsTheEncoding : Obligations.DecodedWordIsTheEncoding :=
  ⟨fun _ _ => encode_of_decodeWord, fun _ _ _ => eq_encodeBytes_append_of_decodeBytes⟩

/-- Settles O3: the two inverse laws of the fields, and the fallback arm of dispatch. -/
theorem fieldDecodingIsTotalAndInverse : Obligations.FieldDecodingIsTotalAndInverse :=
  ⟨fun _ => rfl, fun o d => ⟨rfl, fieldsOfWord_wordOfFields ⟨o, d⟩⟩, wordOfFields_fieldsOfWord,
    fun _ s h0 h1 => Machine.dispatch_unknown h0 h1 s⟩

/-- Settles O4: under the mask a match is a match of the opcode field, by whose value an entry decodes. -/
theorem opcodeMapByMatchAndMask : Obligations.OpcodeMapByMatchAndMask := by
  intro w
  have hnop : w &&& 0xFFFF0000#32 = 0x00000000#32 ↔ (fieldsOfWord w).opcode = 0#16 := and_opcodeMask_eq_iff w 0#16
  have hjmpl : w &&& 0xFFFF0000#32 = 0x00010000#32 ↔ (fieldsOfWord w).opcode = 1#16 := and_opcodeMask_eq_iff w 1#16
  exact ⟨fun h => decodeEntry_nop (hnop.1 h), fun h => decodeEntry_jmpl (hjmpl.1 h),
    fun h0 h1 => decodeEntry_unknown (mt hnop.2 h0) (mt hjmpl.2 h1)⟩

/-- Settles O6: each byte of a word, and each byte that made one. -/
theorem imageIsBigEndian : Obligations.ImageIsBigEndian :=
  ⟨fun _ => rfl, bytesOfWord_wordOfBytes⟩

/-- Settles O5, by the values of the closed mapping. -/
theorem classifyHasThreeArms : Obligations.ClassifyHasThreeArms :=
  ⟨classify_zero, classify_one, fun _ => classify_other⟩

/-- Settles O7, by running the decoder on each image. -/
theorem writtenWordsDecode : Obligations.WrittenWordsDecode := by
  unfold Obligations.WrittenWordsDecode
  decide

end Sys2Proof

/-! # The cycle

What one cycle runs, what it answers and what it pushes; a handler's frame, and its failing services. -/

namespace Sys2Proof.Machine

/-! ## What a cycle answers -/

section Cycle

variable {s t : State} {e : Entry} {i : Instr} {r : InstrRecord} {f : DispatchFault}

theorem fetched_of_ok (h : s.readInstruction s.pc = .ok r) : s.fetched = some r := by
  rw [State.fetched, h]

theorem fetched_of_error (h : s.readInstruction s.pc = .error f) : s.fetched = none := by
  rw [State.fetched, h]

theorem runCycleOp_done (h : step s = .next t) (hf : s.readInstruction s.pc = .ok r) (ht : t.runState = .running) :
    runCycleOp s = (.cycle (.done r), t) := by
  rw [runCycleOp_of_next h, fetched_of_ok hf, ht, cycleResult]

theorem runCycleOp_dispatch_fault (h : step s = .next t) (hf : s.readInstruction s.pc = .ok r)
    (ht : t.runState = .errored) : runCycleOp s = (.cycle (.faulted (some r)), t) := by
  rw [runCycleOp_of_next h, fetched_of_ok hf, ht, cycleResult]

theorem runCycleOp_fetch_fault (h : step s = .next t) (hf : s.readInstruction s.pc = .error f) :
    runCycleOp s = (.cycle (.faulted none), t) := by
  rw [runCycleOp_of_next h, fetched_of_error hf, cycleResult]

/-- The three ways a cycle ends (R111), with the records each pushes (R113): done, a dispatch fault, a fetch fault. -/
theorem step_outcomes (h : step s = .next t) :
    (∃ r, s.readInstruction s.pc = .ok r ∧ t.runState = .running ∧
      t.recentInstr = [r].foldl (pushBuffer Config.recentInstrCap) s.recentInstr) ∨
    (∃ r, s.readInstruction s.pc = .ok r ∧ t.runState = .errored ∧
      t.recentInstr = [r, sentinel t.pc].foldl (pushBuffer Config.recentInstrCap) s.recentInstr) ∨
    ∃ f, s.readInstruction s.pc = .error f ∧ t.runState = .errored ∧
      t.recentInstr = [sentinel t.pc].foldl (pushBuffer Config.recentInstrCap) s.recentInstr := by
  obtain ⟨hr, ⟨hm, rfl⟩ | ⟨e, hm, hcase⟩⟩ := step_next_cases h
  · exact .inr (.inr ⟨_, readInstruction_of_none hm, rfl, rfl⟩)
  have hfetch := readInstruction_of_some hm
  obtain ⟨-, rfl⟩ | ⟨k, -, -, rfl⟩ | ⟨-, -, rfl⟩ | ⟨-, -, rfl⟩ := hcase
  · exact .inl ⟨_, hfetch, hr, rfl⟩
  · exact .inl ⟨_, hfetch, hr, rfl⟩
  · exact .inr (.inl ⟨_, hfetch, rfl, rfl⟩)
  · exact .inr (.inl ⟨_, hfetch, rfl, rfl⟩)

/-! ## What a cycle runs -/

theorem step_of_decode (hr : s.runState = .running) (hm : Memory.read s.imem (instrKey s.pc) = some e)
    (hd : decodeEntry e = .ok i) : step s = exec i (fetchedState e s) := by
  rw [step_of_fetch hr hm, dispatch_of_decode hd]

/-- An instruction read from a table word is the one its fields decode to. -/
theorem decodeWord_of_decodeTableWord {nbits w : Nat} (h : decodeTableWord nbits w = some i) :
    decodeWord (tableWord nbits w) = .ok i := by
  have hbytes := decodeBytes_bytesOfWord (tableWord nbits w) []
  rw [List.append_nil] at hbytes
  rw [decodeTableWord, hbytes] at h
  cases hw : decodeWord (tableWord nbits w) with
  | ok j =>
    obtain ⟨-, rfl⟩ : nbits ≤ 32 ∧ j = i := by simpa [hw, Except.map] using h
    rfl
  | error => simp [hw, Except.map] at h

end Cycle

/-- Settles O23: the records are those of the way the cycle ends, of which `Done` is the first. -/
theorem cyclePushesAtMostTwoRecords : Obligations.CyclePushesAtMostTwoRecords := by
  intro s t h
  refine ⟨step_cycleCount h, ?records, ?pairs⟩
  case records =>
    obtain ⟨r, hf, hrun, hpush⟩ | ⟨r, hf, herr, hpush⟩ | ⟨f, hf, herr, hpush⟩ := step_outcomes h
    · refine ⟨[r], Nat.le_succ 1, hpush, fun herr => ?_, fun r' hdone => ?_⟩
      · rw [hrun] at herr; cases herr
      · rw [runCycleOp_done h hf hrun] at hdone; cases hdone; rfl
    · refine ⟨[r, sentinel t.pc], Nat.le_refl 2, hpush, fun _ => rfl, fun r' hdone => ?_⟩
      rw [runCycleOp_dispatch_fault h hf herr] at hdone; cases hdone
    · refine ⟨[sentinel t.pc], Nat.le_succ 1, hpush, fun _ => rfl, fun r' hdone => ?_⟩
      rw [runCycleOp_fetch_fault h hf] at hdone; cases hdone
  case pairs =>
    obtain hsame | ⟨p, -, -, hpush⟩ := step_recentJumps h
    · exact ⟨[], Nat.zero_le 1, hsame⟩
    · exact ⟨[p], Nat.le_refl 1, hpush⟩

/-- Settles O24, by the three ways a cycle ends. -/
theorem runCycleHasThreeOutcomes : Obligations.RunCycleHasThreeOutcomes := by
  intro s hr
  obtain ⟨t, h⟩ := exists_next_of_running hr
  refine ⟨t, h, ?_⟩
  obtain ⟨r, hf, hrun, -⟩ | ⟨r, hf, herr, -⟩ | ⟨f, hf, herr, -⟩ := step_outcomes h
  · exact .inl ⟨r, hf, hrun, runCycleOp_done h hf hrun⟩
  · exact .inr (.inl ⟨r, hf, herr, runCycleOp_dispatch_fault h hf herr⟩)
  · exact .inr (.inr ⟨⟨f, hf⟩, herr, runCycleOp_fetch_fault h hf⟩)

/-- Settles O29: a running CPU steps, and every step counts. -/
theorem everyAcceptedCycleIsCounted : Obligations.EveryAcceptedCycleIsCounted := fun _ hr =>
  (exists_next_of_running hr).imp fun _ h => ⟨h, step_cycleCount h⟩

/-- Settles O10: `t` is the state after steps 1 to 4, and dispatch goes by the opcode's value. -/
theorem advanceAndRecordPrecedeDispatch : Obligations.AdvanceAndRecordPrecedeDispatch := by
  rintro s t o d hr hm rfl
  exact ⟨fun h0 => step_of_decode hr hm (decodeEntry_nop h0), fun h1 => step_of_decode hr hm (decodeEntry_jmpl h1),
    step_of_unknown_opcode hr hm⟩

/-- Settles O11: dispatch of an entry that decodes is its handler. -/
theorem stepRunsTheDecodedInstruction : Obligations.StepRunsTheDecodedInstruction := fun _ _ _ =>
  step_of_decode

/-- Settles O12: the placed entry is the one the next step fetches, and the instruction's own encoding. -/
theorem placedWordRunsNext : Obligations.PlacedWordRunsNext := by
  intro s w i h
  have hd : decodeEntry (fieldsOfWord (tableWord 32 w)) = .ok i := decodeWord_of_decodeTableWord h
  rw [encodeEntry_of_decodeEntry hd]
  exact step_of_decode rfl (placeEntry_read _ s) hd

/-- Settles O14: the step of a failed fetch, with what it answers. -/
theorem fetchFaultEntersErrored : Obligations.FetchFaultEntersErrored := by
  intro s hr hm
  have hstep := step_of_fetch_fault hr hm
  exact ⟨_, _, hstep, rfl, runCycleOp_fetch_fault hstep (readInstruction_of_none hm)⟩

/-- Settles O15: the step of an opcode without a handler, with what it answers. -/
theorem unknownOpcodeEntersErrored : Obligations.UnknownOpcodeEntersErrored := by
  intro s o d hr hm h0 h1
  have hstep := step_of_unknown_opcode hr hm h0 h1
  exact ⟨_, _, hstep, rfl, runCycleOp_dispatch_fault hstep (readInstruction_of_some hm) rfl⟩

/-! ## A handler's frame -/

/-- Everything a handler can do: nothing, a jump, the Errored entry of an undefined label (R120, R125, R127). -/
theorem exec_next_cases {i : Instr} {s t : State} (h : exec i s = .next t) :
    (∃ operand, i = .nop operand ∧ t = s) ∨
    (∃ label k, i = .jmpl label ∧ Memory.read s.labels (labelKey label) = some k ∧
      t = (s.recordJump ⟨s.pc, rebase k⟩).setPc (rebase k)) ∨
    ∃ label, i = .jmpl label ∧ Memory.read s.labels (labelKey label) = none ∧
      t = s.enterErrored ⟨.unknownLabel, zext32 label⟩ := by
  cases i with
  | nop operand => cases h; exact .inl ⟨operand, rfl, rfl⟩
  | jmpl label =>
    cases hk : Memory.read s.labels (labelKey label) with
    | some k => cases (execJmpl_known hk).symm.trans h; exact .inr (.inl ⟨label, k, rfl, hk, rfl⟩)
    | none => cases (execJmpl_unknown hk).symm.trans h; exact .inr (.inr ⟨label, rfl, hk, rfl⟩)

/-- No handler writes a register, the stack, the counter, a store or a load flag (R108). -/
theorem exec_frame {i : Instr} {s t : State} (h : exec i s = .next t) :
    t.regs = s.regs ∧ t.stack = s.stack ∧ t.stackCap = s.stackCap ∧ t.cycleCount = s.cycleCount ∧
    t.imem = s.imem ∧ t.labels = s.labels ∧ t.loaded = s.loaded ∧ t.loadFailed = s.loadFailed := by
  obtain ⟨_, -, rfl⟩ | ⟨_, k, -, -, rfl⟩ | ⟨_, -, -, rfl⟩ := exec_next_cases h <;>
    exact ⟨rfl, rfl, rfl, rfl, rfl, rfl, rfl, rfl⟩

/-- Settles O21: the frame common to the handlers, and what each leaves besides. -/
theorem handlerFrame : Obligations.HandlerFrame := by
  intro i s t h
  obtain ⟨hregs, hstack, hcap, hcount, himem, hlabels, hloaded, hfailed⟩ := exec_frame h
  refine ⟨hregs, hstack, hcap, hcount, himem, hlabels, hloaded, hfailed,
    fun _ => readInstruction_congr himem, fun _ => resolveLabel_congr hlabels, ?nop, ?defined, ?undefined⟩
  case nop =>
    rintro operand rfl
    cases h; rfl
  case defined =>
    rintro label k rfl hk
    cases (execJmpl_known hk).symm.trans h
    exact ⟨rfl, rfl, rfl⟩
  case undefined =>
    rintro label rfl hk
    cases (execJmpl_unknown hk).symm.trans h
    exact ⟨rfl, rfl⟩

/-! ## A handler's services -/

/-- Settles O33: each service's failure, contained. -/
theorem serviceFailuresAreContained : Obligations.ServiceFailuresAreContained := by
  intro s
  refine ⟨?read, ?write, ?push, ?pop, fun _ _ _ => rfl⟩
  case read => intro idx k h; rw [regGet_out h]; rfl
  case write => intro idx v k h; rw [regSet_out h]; rfl
  case push => intro v k h; exact ⟨_, by rw [stackPush_full v h]; rfl, stackOverflowInfo_toNat⟩
  case pop => intro k h; rw [stackPop_empty h]; rfl

section Requests

variable {s t u : State} {first : List StackRequest} {r : StackRequest} {popped : List Word}

theorem serveStack_append_served {more : List Word} (h : s.serveStack first = (.ok popped, t))
    (hr : t.stackRequest r = .ok (more, u)) : s.serveStack (first ++ [r]) = (.ok (popped ++ more), u) := by
  rw [serveStack_append_ok [r] h, serveStack_cons_ok hr]
  simp [Except.map]

/-- The first failure ends the requests, in the state it met (R109). -/
theorem serveStack_append_failed {f : DispatchFault} (rest : List StackRequest)
    (h : s.serveStack first = (.ok popped, t)) (hr : t.stackRequest r = .error f) :
    s.serveStack (first ++ r :: rest) = (.error f, t) := by
  rw [serveStack_append_ok (r :: rest) h, serveStack_cons_error hr]
  rfl

theorem stackRequest_push_room (v : Int) (h : s.stack.length < s.stackCap) :
    s.stackRequest (.push v) = .ok ([], { s with stack := s.stack ++ [trunc32 v] }) := by
  rw [stackRequest_push, stackPush_room v h]; rfl

theorem stackRequest_push_full (v : Int) (h : s.stackCap ≤ s.stack.length) :
    s.stackRequest (.push v) = .error ⟨.stackOverflow, stackOverflowInfo s.stack.length⟩ := by
  rw [stackRequest_push, stackPush_full v h]; rfl

theorem stackRequest_pop_top {rest : List Word} {top : Word} (h : s.stack = rest ++ [top]) :
    s.stackRequest .pop = .ok ([top], { s with stack := rest }) := by
  rw [stackRequest_pop, stackPop_top h]; rfl

theorem stackRequest_pop_empty (h : s.stack = []) : s.stackRequest .pop = .error ⟨.stackUnderflow, 0⟩ := by
  rw [stackRequest_pop, stackPop_empty h]; rfl

/-- Pushes that fit are all served, each on top of those before it. -/
theorem serveStack_pushes (vs : List Int) (h : s.stack.length + vs.length ≤ s.stackCap) :
    s.serveStack (vs.map .push) = (.ok [], { s with stack := s.stack ++ vs.map trunc32 }) := by
  induction vs generalizing s with
  | nil => simp
  | cons v vs ih =>
    rw [List.length_cons] at h
    rw [List.map_cons, serveStack_cons_ok (stackRequest_push_room v (by omega)), ih (by simp; omega)]
    simp [Except.map]

/-- As many pops as there are values above `rest` take them from the top down. -/
theorem serveStack_pops {rest values : List Word} (h : s.stack = rest ++ values) :
    s.serveStack (List.replicate values.length .pop) = (.ok values.reverse, { s with stack := rest }) := by
  induction values using List.reverseRecOn generalizing s with
  | nil =>
    rw [List.append_nil] at h
    rw [← h]
    rfl
  | append_singleton values top ih =>
    rw [← List.append_assoc] at h
    rw [List.length_append, List.length_singleton, List.replicate_succ, serveStack_cons_ok (stackRequest_pop_top h),
      ih rfl, List.reverse_append]
    rfl

end Requests

/-- Settles O55: a request after served ones; the frame of a sequence; and, for pushes past the capacity and pops past
the bottom, the requests that fit, then the one that fails. -/
theorem handlerStackRequestsAreServedInOrder : Obligations.HandlerStackRequestsAreServedInOrder := by
  refine ⟨fun first rest r s t popped k h => ⟨fun more u hr => ?served, fun f hr => ?failed⟩, serveStack_frame,
    fun vs rest v s k hfull => ?pushes, fun n s k hn => ?pops⟩
  case served =>
    have hserved := serveStack_append_served h hr
    exact ⟨hserved, withStack_ok k hserved⟩
  case failed =>
    have hfailed := serveStack_append_failed rest h hr
    exact ⟨hfailed, withStack_error k hfailed⟩
  case pushes =>
    have hlength : (s.stack ++ vs.map trunc32).length = s.stackCap := by simpa using hfull
    have hserved := serveStack_pushes vs hfull.le
    have hover := stackRequest_push_full (s := { s with stack := s.stack ++ vs.map trunc32 }) v hlength.ge
    rw [List.map_append, List.map_cons]
    refine ⟨_, withStack_error k (serveStack_append_failed _ hserved hover), fun hcap => ?_⟩
    rw [stackOverflowInfo_toNat (hlength ▸ hcap), hlength]
  case pops =>
    obtain ⟨m, rfl⟩ := Nat.exists_eq_add_of_lt hn
    have hserved := serveStack_pops (s := s) (List.nil_append s.stack).symm
    have hunder := stackRequest_pop_empty (s := { s with stack := [] }) rfl
    rw [Nat.add_assoc, List.replicate_add, List.replicate_succ]
    exact withStack_error k (serveStack_append_failed _ hserved hunder)

end Sys2Proof.Machine

/-! # The no-op

Its handler, its word, and the cycle that fetches it. -/

namespace Sys2Proof.Machine

/-- Settles O16: the handler answers the state it is given. -/
theorem nopCompletes : Obligations.NopCompletes := fun _ _ => rfl

/-- Settles O17: the word by its fields; the step of a fetched no-op, with what it answers. -/
theorem nopCycle : Obligations.NopCycle := by
  refine ⟨fun _ => rfl, fun s operand hr hm => ?cycle⟩
  case cycle =>
    have hstep := step_of_nop hr hm rfl
    exact ⟨_, hstep, rfl, runCycleOp_done hstep (readInstruction_of_some hm) hr⟩

end Sys2Proof.Machine

/-! # The label jump

Its handler at a defined label, and the cycle that fetches it, at a defined and at an undefined label. -/

namespace Sys2Proof.Machine

/-- Settles O18: the handler at a defined label records the pair, then overwrites the program counter. -/
theorem jmplCompletes : Obligations.JmplCompletes := fun _ _ _ =>
  execJmpl_known

/-- Settles O19: the step of a jump to a defined label, with what it answers. -/
theorem jmplCycle : Obligations.JmplCycle := by
  intro s label k hr hm hk
  have hstep := step_of_jump hr hm rfl hk
  exact ⟨_, hstep, rfl, runCycleOp_done hstep (readInstruction_of_some hm) hr⟩

/-- Settles O20: the step of a jump to an undefined label, with what it answers. -/
theorem jmplUndefinedLabelEntersErrored : Obligations.JmplUndefinedLabelEntersErrored := by
  intro s label hr hm hk
  have hstep := step_of_unknown_label hr hm rfl hk
  exact ⟨_, _, hstep, rfl, runCycleOp_dispatch_fault hstep (readInstruction_of_some hm) rfl⟩

end Sys2Proof.Machine

/-! # The register file and the stack

Register reads and writes by any index; a push, and pops after pushes. -/

namespace Sys2Proof.Machine

/-- A masked integer is its value modulo a power of two, a negative one too. -/
theorem toNat_ofInt_eq_emod (n : Nat) (v : Int) : ((BitVec.ofInt n v).toNat : Int) = v % 2 ^ n := by
  have hpos : (0 : Int) < 2 ^ n := by positivity
  rw [BitVec.toNat_ofInt, Nat.cast_pow, Nat.cast_ofNat, Int.toNat_of_nonneg (Int.emod_nonneg v hpos.ne')]

/-! ## Register file -/

section Registers

variable {idx : Int}

/-- A written register reads as the masked value. -/
theorem regGet_set_same (h0 : 0 ≤ idx) (h8 : idx < 8) (s : State) (w : Half) :
    State.regGet idx { s with regs := s.regs.set idx.toNat w (by omega) } = .ok w := by
  rw [regGet_in h0 h8, Vector.getElem_set_self]

/-- A write leaves the read of every other index as it was, an index out of range included. -/
theorem regGet_set_other {j : Int} (h0 : 0 ≤ idx) (h8 : idx < 8) (hj : j ≠ idx) (s : State) (w : Half) :
    State.regGet j { s with regs := s.regs.set idx.toNat w (by omega) } = s.regGet j := by
  by_cases hin : 0 ≤ j ∧ j < 8
  · obtain ⟨hj0, hj8⟩ := hin
    have hne : idx.toNat ≠ j.toNat := by omega
    rw [regGet_in hj0 hj8, regGet_in hj0 hj8, Vector.getElem_set_ne _ _ hne]
  · rw [regGet_out hin, regGet_out hin]

end Registers

/-- Settles O35, by whether the index is in range. -/
theorem registerReadByIndex : Obligations.RegisterReadByIndex := by
  refine fun s idx => ⟨fun i hi => ?inside, fun h => regGet_out (by omega) s⟩
  case inside =>
    subst hi
    exact regGet_in (by omega) (by omega) s

/-- Settles O36: the write in range, read back at its own and at every other index; the write out of range. -/
theorem registerWriteIsMasked : Obligations.RegisterWriteIsMasked := by
  refine fun s idx v => ⟨fun ⟨h0, h8⟩ => ?inside, fun h => regSet_out h s⟩
  case inside =>
    exact ⟨_, trunc16 v, regSet_in h0 h8 s, regGet_set_same h0 h8 s _, toNat_ofInt_eq_emod 16 v,
      fun j hj => regGet_set_other h0 h8 hj s _, rfl⟩

/-! ## Stack -/

/-- Settles O37: a push with room, and one to a full stack. -/
theorem stackPushAppendsOrOverflows : Obligations.StackPushAppendsOrOverflows := by
  refine fun s v => ⟨fun h => ⟨_, trunc32 v, stackPush_room v h, rfl, toNat_ofInt_eq_emod 32 v, ?within⟩,
    fun h => ⟨_, stackPush_full v h, stackOverflowInfo_toNat⟩⟩
  case within =>
    rw [List.length_append, List.length_singleton]
    exact h

/-- Settles O38: the pushes leave their values on top of the stack, and as many pops take exactly these. -/
theorem stackIsLastInFirstOut : Obligations.StackIsLastInFirstOut := by
  refine ⟨fun vs s h => ⟨_, serveStack_pushes vs h, by simp, ?pops⟩, fun _ _ _ => stackPop_top, fun _ => stackPop_empty⟩
  case pops =>
    have hpops := serveStack_pops (s := { s with stack := s.stack ++ vs.map trunc32 }) rfl
    rwa [List.length_map] at hpops

end Sys2Proof.Machine

/-! # The host interface

The reads, `Reset`, `Start` and `RunCycle`; the checks of `Load` and what it installs; the invariant kept by every host
operation. -/

namespace Sys2Proof.Machine

/-! ## Reads, Reset, Start, RunCycle -/

section Operations

variable {s : State}

theorem readRegResult_in (i : Fin 8) (s : State) : readRegResult i.val s = .reg s.regs[i.val] := by
  have hget : s.regGet i.val = .ok s.regs[i.val] := regGet_in (by omega) (by omega) s
  rw [readRegResult, hget]

theorem readRegResult_out {idx : Int} (h : ¬ (0 ≤ idx ∧ idx < 8)) (s : State) :
    readRegResult idx s = .invalidRegister := by
  rw [readRegResult, regGet_out h]

theorem startOp_accepted (h : s.runState = .halted ∧ s.loaded = true ∧ s.loadFailed = false) :
    startOp s = (.ok, s.setRunState .running) :=
  if_pos h

theorem startOp_rejected (h : ¬ (s.runState = .halted ∧ s.loaded = true ∧ s.loadFailed = false)) :
    startOp s = (.preconditionError, s) :=
  if_neg h

/-- A step is accepted or rejected; every instruction has a meaning. -/
theorem step_ne_refused (s : State) (reason : Refusal) : step s ≠ .refused reason := by
  intro h
  by_cases hr : s.runState = .running
  · obtain ⟨t, ht⟩ := exists_next_of_running hr
    cases ht.symm.trans h
  · cases (step_not_running hr).symm.trans h

end Operations

/-- Settles O13, by whether the CPU is `Running`. -/
theorem cyclesRunExactlyWhenRunning : Obligations.CyclesRunExactlyWhenRunning := by
  refine fun lim s => ⟨fun hr => ?running, fun hstopped => ?stopped, step_ne_refused s⟩
  case running =>
    obtain ⟨t, ht⟩ := exists_next_of_running hr
    exact ⟨t, _, ht, runCycleOp_of_next ht⟩
  case stopped =>
    have hr : s.runState ≠ .running := by
      obtain h | h := hstopped <;> rw [h] <;> decide
    exact ⟨step_not_running hr, runCycleOp_not_running hr⟩

/-- Settles O39: every element of the reset state is the value stated. -/
theorem resetGivesEveryElementItsValue : Obligations.ResetGivesEveryElementItsValue := fun _ _ =>
  ⟨State.reset, rfl, rfl, fun i => Vector.getElem_replicate i.isLt, rfl, rfl, rfl, rfl, rfl, rfl, rfl, rfl, rfl, rfl,
    rfl, rfl⟩

/-- Settles O43, by the two cases of `Start`. -/
theorem startNeedsALoadedHaltedCpu : Obligations.StartNeedsALoadedHaltedCpu := fun _ _ =>
  ⟨startOp_accepted, startOp_rejected⟩

/-- Settles O47: a read answers the element it names; the register read, by whether the index is in range. -/
theorem readsObserveAndChangeNothing : Obligations.ReadsObserveAndChangeNothing := by
  refine fun lim s => ⟨rfl, rfl, rfl, rfl, fun i => ?inside, fun idx hidx => ?outside, rfl, rfl⟩
  case inside => rw [hostOp, readRegResult_in]
  case outside => rw [hostOp, readRegResult_out (by omega)]

/-! ## Load -/

section Load

variable {lim : Limits} {args : LoadArgs} {s t : State} {reason : LoadErrorReason}

theorem hasRepeat_eq_true_iff {l : List Nat} : hasRepeat l = true ↔ ¬ l.Nodup := by
  rw [← hasRepeat_eq_false_iff, Bool.not_eq_false]

/-- Two labels share a key exactly when they share an identifier (R52). -/
theorem nodup_labelPairs_iff : (args.labelPairs.map Prod.fst).Nodup ↔ (args.labelList.map Prod.fst).Nodup := by
  have hkeys : args.labelPairs.map Prod.fst = (args.labelList.map Prod.fst).map labelKey := by
    simp [LoadArgs.labelPairs]
  rw [hkeys]
  exact List.nodup_map_iff fun _ _ => BitVec.eq_of_toNat_eq

/-- Two instructions share a key exactly when they share an address (R51). -/
theorem nodup_instrPairs_iff : (args.instrPairs.map Prod.fst).Nodup ↔ (args.instrs.map Prod.fst).Nodup := by
  have hkeys : args.instrPairs.map Prod.fst = (args.instrs.map Prod.fst).map instrKey := by
    simp [LoadArgs.instrPairs]
  rw [hkeys]
  exact List.nodup_map_iff fun _ _ => BitVec.eq_of_toNat_eq

/-- The checks of R158 on the lists themselves, in their order. -/
theorem check_eq : args.check lim =
    if args.instrs = [] then some .emptyStore
    else if ¬ (args.labelList.map Prod.fst).Nodup then some .duplicateLabel
    else if ¬ (args.instrs.map Prod.fst).Nodup then some .duplicateAddress
    else if lim.imemMax < args.instrs.length ∨ lim.labelMax < args.labelList.length ∨ lim.stackMax < args.cap then
      some .capacity
    else none := by
  simp only [LoadArgs.check, hasRepeat_eq_true_iff, nodup_labelPairs_iff, nodup_instrPairs_iff]

theorem loadOp_second (h : s.loaded = true ∨ s.loadFailed = true) :
    loadOp lim args s = (.loadError .secondLoad, s) :=
  if_pos h

theorem loadOp_malformed (hl : s.loaded = false) (hf : s.loadFailed = false) (hc : args.check lim = some reason) :
    loadOp lim args s = (.loadError reason, { s with loadFailed := true }) := by
  simp [loadOp, hl, hf, hc]

theorem loadOp_accepted (hl : s.loaded = false) (hf : s.loadFailed = false) (hc : args.check lim = none) :
    loadOp lim args s = (.ok, s.install args) := by
  simp [loadOp, hl, hf, hc]

/-- A `Load` that answers `Ok` passed every check and installed the program. -/
theorem loadOp_eq_ok (h : loadOp lim args s = (.ok, t)) : args.check lim = none ∧ t = s.install args := by
  obtain ⟨-, hload⟩ | ⟨-, -, ⟨_, -, hload⟩ | ⟨hc, hload⟩⟩ := loadOp_cases lim args s
  · cases hload.symm.trans h
  · cases hload.symm.trans h
  · cases hload.symm.trans h
    exact ⟨hc, rfl⟩

theorem readInstruction_eq_ok_iff {a : Word} {e : Entry} :
    s.readInstruction a = .ok ⟨a, (e.opcode.toNat : Int), e.operand⟩ ↔ Memory.read s.imem (instrKey a) = some e := by
  refine ⟨fun h => ?_, readInstruction_of_some⟩
  obtain ⟨e', hread, hrecord⟩ := readInstruction_ok h
  rw [hread, ← entryOfRecord_fetched a e', ← hrecord, entryOfRecord_fetched]

theorem resolveLabel_eq_ok_iff {id : Half} {k : Word} :
    s.resolveLabel id = .ok k ↔ Memory.read s.labels (labelKey id) = some k := by
  refine ⟨fun h => ?_, resolveLabel_of_some⟩
  cases hread : Memory.read s.labels (labelKey id) with
  | none => cases (resolveLabel_of_none hread).symm.trans h
  | some k' => cases (resolveLabel_of_some hread).symm.trans h; rfl

end Load

/-- Settles O40: check 1 alone, then the chain of checks 2 to 5, each clause the branch its premises select. -/
theorem loadChecksInOrder : Obligations.LoadChecksInOrder := by
  refine fun lim args s => ⟨loadOp_second, fun hl hf => ⟨fun hempty => ?empty, fun hne => ⟨fun hlabels => ?label,
    fun hlabels => ⟨fun haddrs => ?address, fun haddrs => ⟨fun hsize => ?size, fun hinstrs hlabelMax hcap => ?ok⟩⟩⟩⟩,
    fun hf => startOp_rejected fun h => ?start⟩
  case empty => exact loadOp_malformed hl hf (by rw [check_eq, if_pos hempty])
  case label => exact loadOp_malformed hl hf (by rw [check_eq, if_neg hne, if_pos hlabels])
  case address =>
    exact loadOp_malformed hl hf (by rw [check_eq, if_neg hne, if_neg (not_not_intro hlabels), if_pos haddrs])
  case size =>
    exact loadOp_malformed hl hf (by
      rw [check_eq, if_neg hne, if_neg (not_not_intro hlabels), if_neg (not_not_intro haddrs), if_pos hsize])
  case ok =>
    have hc : args.check lim = none := check_eq_none_iff.mpr
      ⟨hne, nodup_labelPairs_iff.mpr hlabels, nodup_instrPairs_iff.mpr haddrs, hinstrs, hlabelMax, hcap⟩
    rw [hostOp, loadOp_accepted hl hf hc]
  case start =>
    cases hf.symm.trans h.2.2

/-- Settles O41: the state is the installed one, whose stores read as the lists. -/
theorem loadInstallsExactlyTheProgram : Obligations.LoadInstallsExactlyTheProgram := by
  intro lim args s t h
  obtain ⟨hc, rfl⟩ := loadOp_eq_ok h
  exact ⟨fun _ _ => readInstruction_eq_ok_iff.trans (read_install_imem hc),
    fun _ _ => resolveLabel_eq_ok_iff.trans (read_install_labels hc), rfl, rfl, rfl, rfl, rfl, rfl, rfl, rfl, rfl, rfl, rfl⟩

/-! ## The invariant -/

section Invariant

variable {lim : Limits} {args : LoadArgs} {s : State}

/-- Before a `Load` the CPU has not been started, so nothing is counted or recorded. -/
theorem unloaded_fresh (hi : s.Inv lim) (hl : s.loaded = false) :
    s.runState = .halted ∧ s.cycleCount = 0 ∧ s.recentInstr = [] ∧ s.recentJumps = [] := by
  have hhalted : s.runState = .halted := by
    by_contra hr
    cases hl.symm.trans (hi.started_loaded hr)
  exact ⟨hhalted, hi.halted_fresh hhalted⟩

/-- A remembered `Load` failure is one in an unloaded CPU. -/
theorem loadFailed_keeps_inv (hi : s.Inv lim) (hl : s.loaded = false) : State.Inv lim { s with loadFailed := true } :=
  { hi with load_once := fun h => by cases hl.symm.trans h.1 }

/-- The bounds are the checks; whatever speaks of a run holds since none has begun. -/
theorem install_keeps_inv (hi : s.Inv lim) (hl : s.loaded = false) (hf : s.loadFailed = false)
    (hc : args.check lim = none) : (s.install args).Inv lim := by
  obtain ⟨hhalted, -, hinstr, hjumps⟩ := unloaded_fresh hi hl
  obtain ⟨hne, -, -, himem, hlabels, hcap⟩ := check_eq_none_iff.mp hc
  exact
  { imem_wf := wf_instrPairs args
    labels_wf := wf_labelPairs args
    imem_bound := (length_ofPairs_le _).trans (by rwa [LoadArgs.instrPairs, List.length_map])
    labels_bound := (length_ofPairs_le _).trans (by rwa [LoadArgs.labelPairs, List.length_map])
    cap_bound := hcap
    stack_bound := Nat.zero_le _
    instr_buffer_bound := hi.instr_buffer_bound
    jump_buffer_bound := hi.jump_buffer_bound
    records_wf := hi.records_wf
    trace_faithful := by simp [hinstr]
    jump_targets := by simp [hjumps]
    load_once := fun h => by cases hf.symm.trans h.2
    unloaded_empty := fun h => by cases h
    loaded_nonempty := fun _ => ofPairs_ne_nil (by simpa [LoadArgs.instrPairs] using hne)
    halted_fresh := hi.halted_fresh
    started_loaded := fun _ => rfl
    running_trace := hi.running_trace
    jumps_counted := hi.jumps_counted
    errored_report := fun herr => by cases hhalted.symm.trans herr }

/-- A start begins with no cycle counted and no record. -/
theorem start_keeps_inv (hi : s.Inv lim) (hhalted : s.runState = .halted) (hl : s.loaded = true) :
    (s.setRunState .running).Inv lim := by
  obtain ⟨hcount, hinstr, -⟩ := hi.halted_fresh hhalted
  exact
  { hi with
    halted_fresh := fun h => by cases h
    started_loaded := fun _ => hl
    running_trace := fun _ => by simp [hcount, hinstr]
    errored_report := fun h => by cases h }

/-- Every host operation keeps the invariant, by the cases of each operation. -/
theorem hostOp_keeps_inv (o : HostOp) (hi : s.Inv lim) : (hostOp lim o s).2.Inv lim := by
  cases o with
  | reset => exact resetHasTheInvariant lim
  | load args =>
    obtain ⟨-, hload⟩ | ⟨hl, hf, ⟨_, -, hload⟩ | ⟨hc, hload⟩⟩ := loadOp_cases lim args s <;> rw [hostOp, hload]
    · exact hi
    · exact loadFailed_keeps_inv hi hl
    · exact install_keeps_inv hi hl hf hc
  | start =>
    obtain ⟨⟨hhalted, hl, -⟩, hstart⟩ | ⟨-, hstart⟩ := startOp_cases s <;> rw [hostOp, hstart]
    · exact start_keeps_inv hi hhalted hl
    · exact hi
  | runCycle =>
    obtain ⟨t, ht, hrun⟩ | ⟨-, hrun⟩ := runCycleOp_cases s <;> rw [hostOp, hrun]
    · exact step_keeps_inv hi ht
    · exact hi
  | readState | readCycleCount | readLastError | readPC | readReg | readRecentInstr | readRecentJumps => exact hi

theorem reachable_inv (h : Reachable lim s) : s.Inv lim := by
  induction h with
  | reset => exact resetHasTheInvariant lim
  | op o _ ih => exact hostOp_keeps_inv o ih

end Invariant

/-- Settles O51: every operation keeps the invariant, so by induction on the operations every reachable state has it. -/
theorem reachableStatesHaveTheInvariant : Obligations.ReachableStatesHaveTheInvariant :=
  ⟨fun _ o _ => hostOp_keeps_inv o, fun _ _ => reachable_inv⟩

end Sys2Proof.Machine

/-! # Exceptions

What the Errored entry writes, where a fault leaves the program counter and the buffers, and the run state under every
operation: `Errored` is terminal, a rejected operation changes nothing. -/

namespace Sys2Proof.Machine

/-! ## The Errored entry -/

theorem step_enterErrored (f : DispatchFault) (s : State) : step (s.enterErrored f) = .fault .preconditionError :=
  step_not_running (by rw [enterErrored_runState]; decide)

/-- Settles O32: the entry's three writes, and the gate, which rejects the `Errored` CPU. -/
theorem erroredEntryWritesThreeElements : Obligations.ErroredEntryWritesThreeElements := fun f s =>
  ⟨⟨_, rfl⟩, step_enterErrored f s⟩

/-! ## Where a fault leaves the CPU -/

section Faults

variable {s t : State}

/-- A second push leaves the first one's entry in a buffer that holds two. -/
theorem pushBuffer_pushBuffer_ends {α : Type} {capacity : Nat} (hc : 1 < capacity) (buf : List α) (a b : α) :
    ∃ older, pushBuffer capacity (pushBuffer capacity buf a) b = older ++ [a, b] := by
  obtain ⟨before, hfirst⟩ : ∃ before, pushBuffer capacity buf a = before ++ [a] := ⟨_, rfl⟩
  rw [hfirst]
  by_cases hfull : (before ++ [a]).length = capacity
  · have hne : before ≠ [] := by rintro rfl; simp at hfull; omega
    exact ⟨before.tail, by rw [pushBuffer_full hfull, List.tail_append_of_ne_nil hne, List.append_assoc]; rfl⟩
  · exact ⟨before, by rw [pushBuffer_not_full hfull, List.append_assoc]; rfl⟩

theorem nextPc_sub_four (a : Word) : nextPc a - 4 = a :=
  BitVec.add_sub_cancel a 4

/-- A step that ends `Errored` took the Errored entry: before the advance when the fetch failed, after it otherwise, and
then before the handler wrote anything (R104, R110, R127). -/
theorem step_errored_cases (h : step s = .next t) (herr : t.runState = .errored) :
    (Memory.read s.imem (instrKey s.pc) = none ∧ t = s.countCycle.enterErrored ⟨.invalidAddress, s.pc⟩) ∨
    ∃ e f, Memory.read s.imem (instrKey s.pc) = some e ∧ t = (fetchedState e s).enterErrored f := by
  obtain ⟨hr, hfetch | ⟨e, hm, ⟨-, rfl⟩ | ⟨k, -, -, rfl⟩ | ⟨-, -, ht⟩ | ⟨-, -, ht⟩⟩⟩ := step_next_cases h
  · exact .inl hfetch
  · cases hr.symm.trans herr
  · cases hr.symm.trans herr
  · exact .inr ⟨e, _, hm, ht⟩
  · exact .inr ⟨e, _, hm, ht⟩

end Faults

/-- Settles O25: a failed fetch leaves `pc` and pushes the sentinel alone; a dispatch fault comes after the advance and
the push of the fetched record, which the sentinel does not evict. -/
theorem faultsArePrecise : Obligations.FaultsArePrecise := by
  intro s t h herr
  obtain ⟨hm, rfl⟩ | ⟨e, f, hm, rfl⟩ := step_errored_cases h herr
  · have hfetch := readInstruction_of_none hm
    refine ⟨rfl, fun r hr => ?_, fun _ _ => ⟨rfl, _, _, rfl, rfl⟩⟩
    cases hfetch.symm.trans hr
  · have hfetch := readInstruction_of_some hm
    refine ⟨rfl, fun r hr => ?_, fun f' hf => ?_⟩
    · cases hfetch.symm.trans hr
      have hpc : nextPc s.pc - 4 = s.pc := nextPc_sub_four s.pc
      obtain ⟨older, hends⟩ := pushBuffer_pushBuffer_ends (capacity := Config.recentInstrCap) (by decide) s.recentInstr
        ⟨s.pc, (e.opcode.toNat : Int), e.operand⟩ (sentinel (nextPc s.pc))
      exact ⟨hpc, older, hends, hpc.symm⟩
    · cases hfetch.symm.trans hf

/-! ## Operations that change nothing -/

section Unchanged

variable {lim : Limits} {s : State}

/-- Operations each of which leaves the state as it is leave it so in sequence, and answer what each answers alone. -/
theorem hostOps_of_unchanged {ops : List HostOp} (h : ∀ o ∈ ops, (hostOp lim o s).2 = s) :
    hostOps lim ops s = (ops.map fun o => (hostOp lim o s).1, s) := by
  induction ops with
  | nil => rfl
  | cons o rest ih =>
    obtain ⟨ho, hrest⟩ := List.forall_mem_cons.mp h
    rw [hostOps, ho, ih hrest, List.map_cons]

/-- An operation that changes nothing answers the same any number of times. -/
theorem hostOps_replicate {o : HostOp} {result : OpResult} (h : hostOp lim o s = (result, s)) (n : Nat) :
    hostOps lim (List.replicate n o) s = (List.replicate n result, s) := by
  rw [hostOps_of_unchanged fun o' ho' => by rw [List.eq_of_mem_replicate ho', h], List.map_replicate, h]

/-- A stopped CPU rejects a cycle request and stays as it is (R190, R191). -/
theorem hostOp_runCycle_stopped (lim : Limits) (h : s.runState = .halted ∨ s.runState = .errored) :
    hostOp lim .runCycle s = (.preconditionError, s) := by
  obtain ⟨-, hstopped, -⟩ := cyclesRunExactlyWhenRunning lim s
  exact (hstopped h).2

/-- A loaded CPU that is `Errored` stays as it is under every operation but `Reset` (R187). -/
theorem hostOp_errored_unchanged (herr : s.runState = .errored) (hl : s.loaded = true) {o : HostOp} (ho : o ≠ .reset) :
    (hostOp lim o s).2 = s := by
  cases o with
  | reset => exact absurd rfl ho
  | load args => rw [hostOp, loadOp_second (.inl hl)]
  | start => rw [hostOp, startOp_rejected fun h => by cases herr.symm.trans h.1]
  | runCycle => rw [hostOp_runCycle_stopped lim (.inr herr)]
  | readState | readCycleCount | readLastError | readPC | readReg | readRecentInstr | readRecentJumps => rfl

end Unchanged

/-- Settles O34: the gate, the reset state, and each operation but `Reset` alone, hence any sequence of them. -/
theorem erroredIsTerminal : Obligations.ErroredIsTerminal := by
  refine fun lim ops s herr => ⟨hostOp_runCycle_stopped lim (.inr herr), rfl, rfl, fun hl hno => ?_⟩
  rw [hostOps_of_unchanged fun o ho => hostOp_errored_unchanged herr hl (ne_of_mem_of_not_mem ho hno)]

/-- Settles O44: one rejected request changes nothing, so any number of them are rejected alike. -/
theorem rejectedOperationsChangeNothing : Obligations.RejectedOperationsChangeNothing := by
  refine fun lim s n => ⟨fun hstopped => hostOps_replicate (hostOp_runCycle_stopped lim hstopped) n, fun hbad => ?_⟩
  refine hostOps_replicate (o := .start) (startOp_rejected ?_) n
  rintro ⟨hhalted, hl, hf⟩
  simp [hhalted, hl, hf] at hbad

/-! ## The run state under every operation -/

section Transitions

variable {lim : Limits} {s : State}

/-- `Load` leaves the run state to `Start` (R192). -/
theorem loadOp_runState (lim : Limits) (args : LoadArgs) (s : State) : (loadOp lim args s).2.runState = s.runState := by
  obtain ⟨-, hload⟩ | ⟨-, -, ⟨_, -, hload⟩ | ⟨-, hload⟩⟩ := loadOp_cases lim args s
  · rw [hload]
  · rw [hload]
  · rw [hload, install_runState]

/-- The first `Load` sets one of the two load flags (R42). -/
theorem loadOp_first (hl : s.loaded = false) (hf : s.loadFailed = false) (args : LoadArgs) : ∃ t,
    (loadOp lim args s = (.ok, t) ∧ t.loaded = true) ∨
    ∃ reason, loadOp lim args s = (.loadError reason, t) ∧ t.loadFailed = true := by
  cases hc : args.check lim with
  | none => exact ⟨_, .inl ⟨loadOp_accepted hl hf hc, install_loaded s args⟩⟩
  | some reason => exact ⟨_, .inr ⟨reason, loadOp_malformed hl hf hc, rfl⟩⟩

/-- An accepted cycle answers `Done` and goes on, or answers `Faulted` and is `Errored` (R111). -/
theorem runCycleOp_running (hr : s.runState = .running) : ∃ t result, runCycleOp s = (.cycle result, t) ∧
    ((∃ r, result = .done r) ∧ t.runState = .running ∨ (∃ r, result = .faulted r) ∧ t.runState = .errored) := by
  obtain ⟨t, h⟩ := exists_next_of_running hr
  obtain ⟨r, hf, hrun, -⟩ | ⟨r, hf, herr, -⟩ | ⟨f, hf, herr, -⟩ := step_outcomes h
  · exact ⟨t, _, runCycleOp_done h hf hrun, .inl ⟨⟨r, rfl⟩, hrun⟩⟩
  · exact ⟨t, _, runCycleOp_dispatch_fault h hf herr, .inr ⟨⟨_, rfl⟩, herr⟩⟩
  · exact ⟨t, _, runCycleOp_fetch_fault h hf, .inr ⟨⟨none, rfl⟩, herr⟩⟩

end Transitions

/-- Settles O48, row by row. The invariant makes a started CPU a loaded one, whose second `Load` is rejected, and keeps
a loaded CPU free of a remembered failure, so that its `Start` is accepted. -/
theorem runStateTransitionTable : Obligations.RunStateTransitionTable := by
  refine fun lim s args hi => ⟨rfl, rfl, loadOp_runState lim args s, fun _ hl hf => loadOp_first hl hf args,
    fun hbad => ?secondLoad, fun hhalted hl => ?start, fun hbad => ?noStart, runCycleOp_running, runCycleOp_not_running⟩
  case secondLoad =>
    obtain hl | hf | hr := hbad
    · exact loadOp_second (.inl hl)
    · exact loadOp_second (.inr hf)
    · exact loadOp_second (.inl (hi.started_loaded hr))
  case start =>
    have hf : s.loadFailed = false := Bool.eq_false_iff.mpr fun hf => hi.load_once ⟨hl, hf⟩
    exact startOp_accepted ⟨hhalted, hl, hf⟩
  case noStart =>
    refine startOp_rejected ?_
    rintro ⟨hhalted, hl, -⟩
    simp [hhalted, hl] at hbad

end Sys2Proof.Machine

/-! # Reset and hazards

The boot order, and programs that meet the loader obligations: a run on closed code never faults. -/

namespace Sys2Proof.Machine

/-! ## The boot order -/

section Boot

variable {lim : Limits} {args : LoadArgs} {s t : State}

theorem hostOps_cons {o : HostOp} {result : OpResult} (h : hostOp lim o s = (result, t)) (rest : List HostOp) :
    hostOps lim (o :: rest) s = (result :: (hostOps lim rest t).1, (hostOps lim rest t).2) := by
  rw [hostOps, h]

theorem hostOps_reset (rest : List HostOp) (s : State) :
    hostOps lim (.reset :: rest) s =
      (.nothing :: (hostOps lim rest State.reset).1, (hostOps lim rest State.reset).2) :=
  hostOps_cons rfl rest

/-- After `Reset` and a good `Load` the CPU is the reset one with the program installed. -/
theorem hostOps_reset_load (hc : args.check lim = none) (rest : List HostOp) (s : State) :
    hostOps lim (.reset :: .load args :: rest) s =
      (.nothing :: .ok :: (hostOps lim rest (State.reset.install args)).1,
        (hostOps lim rest (State.reset.install args)).2) := by
  rw [hostOps_reset, hostOps_cons (o := .load args) (loadOp_reset hc)]

/-- The whole boot sequence leaves the same CPU from every state: the installed one, `Running` (R217). -/
theorem hostOps_boot (hc : args.check lim = none) (rest : List HostOp) (s : State) :
    hostOps lim (.reset :: .load args :: .start :: rest) s =
      (.nothing :: .ok :: .ok :: (hostOps lim rest ((State.reset.install args).setRunState .running)).1,
        (hostOps lim rest ((State.reset.install args).setRunState .running)).2) := by
  rw [hostOps_reset_load hc, hostOps_cons (o := .start) (startOp_accepted ⟨rfl, rfl, rfl⟩)]

theorem booted_eq (hc : args.check lim = none) : booted lim args = (State.reset.install args).setRunState .running :=
  congrArg Prod.snd (hostOps_boot hc [] State.reset)

end Boot

/-- Settles O46: without `Load` or without `Start` the CPU is still `Halted`, which rejects every request alike; the
booted one is `Running`, which accepts a cycle. -/
theorem bootOrderIsNeeded : Obligations.BootOrderIsNeeded := by
  refine fun lim args s n hc => ⟨?noLoad, ?noStart, ?booted⟩
  case noLoad =>
    have hstart : hostOp lim .start State.reset = (.preconditionError, State.reset) :=
      startOp_rejected fun h => by cases h.2.1
    rw [hostOps_reset, hostOps_cons hstart, hostOps_replicate (hostOp_runCycle_stopped lim (.inl rfl))]
  case noStart =>
    rw [hostOps_reset_load hc, hostOps_replicate (hostOp_runCycle_stopped lim (.inl rfl))]
  case booted =>
    obtain ⟨t, result, hcycle, -⟩ := runCycleOp_running (s := (State.reset.install args).setRunState .running) rfl
    exact ⟨result, by rw [hostOps_boot hc, hostOps_cons (o := .runCycle) hcycle, hostOps]⟩

/-! ## Closed code -/

section ClosedCode

variable {s t : State}

/-- Closedness speaks of the two stores alone. -/
theorem State.ClosedCode.of_stores_eq (h : s.ClosedCode) (himem : t.imem = s.imem) (hlabels : t.labels = s.labels) :
    t.ClosedCode := by
  constructor <;> simp only [State.HasInstr, himem, hlabels]
  · exact h.known
  · exact h.falls
  · exact h.jumps

/-- A step of a `Running` CPU on closed code: the fetched `nop` or `jmpl` leads to a loaded instruction, and no step
writes the stores. -/
theorem onTrack_step (h : s.OnTrack) : ∃ t, step s = .next t ∧ t.OnTrack ∧ t.lastError = s.lastError := by
  obtain ⟨hr, ⟨e, hm⟩, hcode⟩ := h
  obtain h0 | h1 := hcode.known _ _ hm
  · exact ⟨_, step_of_nop hr hm h0, ⟨hr, hcode.falls _ _ hm h0, hcode.of_stores_eq rfl rfl⟩, rfl⟩
  · obtain ⟨k, hk, htarget⟩ := hcode.jumps _ _ hm h1
    exact ⟨_, step_of_jump hr hm h1 hk, ⟨hr, htarget, hcode.of_stores_eq rfl rfl⟩, rfl⟩

/-- A run of any length on closed code stays on track and reports no fault. -/
theorem onTrack_run (h : s.OnTrack) (n : Nat) :
    ∃ t, Host.Core.run Sys2Proof.core n s = .next t ∧ t.OnTrack ∧ t.lastError = s.lastError := by
  induction n generalizing s with
  | zero => exact ⟨s, rfl, h, rfl⟩
  | succ n ih =>
    obtain ⟨u, hu, htrack, herr⟩ := onTrack_step h
    obtain ⟨t, hrun, ht, herr'⟩ := ih htrack
    exact ⟨t, (core_run_succ_of_next hu).trans hrun, ht, herr'.trans herr⟩

end ClosedCode

/-- Settles O53, by the two opcodes that closed code has. -/
theorem closedCodeStaysOnTrack : Obligations.ClosedCodeStaysOnTrack := fun _ => onTrack_step

/-! ## Programs that meet the loader obligations -/

section Obedient

variable {lim : Limits} {args : LoadArgs} {s : State}

theorem hasInstr_install (hc : args.check lim = none) {a : Word} :
    (s.install args).HasInstr a ↔ ∃ e, (a, e) ∈ args.instrs :=
  exists_congr fun _ => read_install_imem hc

/-- Rows 4 to 7 of R218 on the arguments are closedness of the code they install. -/
theorem closedCode_install (hc : args.check lim = none) (h : args.Closed) : (s.install args).ClosedCode where
  known a e hm := h.known (a, e) ((read_install_imem hc).mp hm)
  falls a e hm h0 := (hasInstr_install hc).mpr (h.falls (a, e) ((read_install_imem hc).mp hm) h0)
  jumps a e hm h1 := by
    obtain ⟨k, hk⟩ := h.labels (a, e) ((read_install_imem hc).mp hm) h1
    exact ⟨k, (read_install_labels hc).mpr hk, (hasInstr_install hc).mpr (h.targets (e.operand, k) hk)⟩

/-- Row 3 of R218 puts the booted CPU on a loaded instruction. -/
theorem onTrack_booted (hc : args.check lim = none) (h : args.Closed) : (booted lim args).OnTrack := by
  rw [booted_eq hc]
  have hcode : (State.reset.install args).ClosedCode := closedCode_install hc h
  have hstart : (State.reset.install args).HasInstr (rebase args.startOffset) := (hasInstr_install hc).mpr h.start
  exact ⟨rfl, hstart, hcode.of_stores_eq rfl rfl⟩

end Obedient

/-- Settles O54: the boot leaves a CPU on track, a run of any length keeps it so, and every cycle is counted. -/
theorem obedientProgramsNeverFault : Obligations.ObedientProgramsNeverFault := by
  intro lim args hc hclosed
  have hboot := booted_eq hc
  refine ⟨by rw [hboot, hostOps_boot hc, hostOps], fun n => ?_⟩
  obtain ⟨t, hrun, ⟨hrunning, -, -⟩, herr⟩ := onTrack_run (onTrack_booted hc hclosed) n
  refine ⟨t, hrun, hrunning, ?count, ?noError⟩
  case count => rw [core_run_cycleCount hrun, hboot]; exact Nat.zero_add n
  case noError => rw [herr, hboot]; rfl

end Sys2Proof.Machine
